-- ==== Sys2Proof/Word.lean ====
section
/-! DEFINITION. The word types of YSIM-CORE: a byte (00_scope.md R10), a nibble (40_modhex.md R100) and the widths
of the session registers (00_scope.md R7: CTR_W, SCTR_W, TMR_W, RND_W). Every helper that computes stands in
Decode.lean or under Machine/. -/

namespace Sys2Proof

/-- 00_scope.md R10: "A byte is 8 bits." On every byte port one character is one byte. -/
abbrev Byte := BitVec 8

/-- 40_modhex.md R100: one hexadecimal digit, the index into the modhex table. -/
abbrev Nibble := BitVec 4

/-- 00_scope.md R7: the width of CTR, of RND and of the CRC accumulator. -/
abbrev Word16 := BitVec 16

/-- 00_scope.md R7: the width of TMR. -/
abbrev Word24 := BitVec 24

end Sys2Proof
end

