-- ==== Sys2Proof/Config.lean ====
section
/-! DEFINITION. What the spec leaves open: the answers of the random port and of the clock port, each "a draw under
no law" (10_state.md R33, R34; 93_implementation_defined.md U4, U5; the OPEN parameters RNG, CLK_QUANT and CLK_W of
92_eei_decisions.md). Each constant has no body, so nothing can be proved of its values. They are used only for
a read that the injected answers held in State (10_state.md R33) do not cover; see notes/assumptions/3.md. -/

namespace Sys2Proof

/-- The answer of `DrawU16()` at the n-th port read, where none is injected: any value in [0, 65535] (R33, U4). -/
opaque Config.freeU16 : Nat → Word16

/-- Byte i of the answer of `DrawBytes(k)` at the n-th port read, where none is injected: any byte (R33, U4). -/
opaque Config.freeByte : Nat → Nat → Byte

/-- The answer of `ClockTicks()` at the n-th port read, where none is injected: any natural number, already in
8 Hz-equivalent ticks (R34, U5; D11: "a model may use unbounded naturals"). -/
opaque Config.freeTicks : Nat → Nat

end Sys2Proof
end

