-- ==== Sys2Proof/Syntax.lean ====
section
/-! DEFINITION. The ten commands of 30_encoding.md R74, one constructor per row of spec/opcode_table.json. A command
is an abstract value `(op, operands)` (R70); an operand is a byte sequence, and a text operand is the same bytes read
as characters, one ASCII character per byte (R72). -/

namespace Sys2Proof

/-- 30_encoding.md R74, in the order of the opcode map. -/
inductive Instr where
  /-- MHENC, format B: hex text to modhex text (R101). -/
  | mhenc (text : List Byte)
  /-- MHDEC, format B: modhex text to hex text (R103). -/
  | mhdec (text : List Byte)
  /-- CRC16, format B: checksum of a 14-byte buffer (R111). -/
  | crc16 (buffer : List Byte)
  /-- AESENC, format K: encrypt one block; operand 1 is the key, operand 2 the block (R121). -/
  | aesenc (key block : List Byte)
  /-- GEN, format N: run the pipeline on the registers as they stand (R145). -/
  | gen
  /-- INSERT, format N: the insertion event (R151). -/
  | insert
  /-- BUTTON, format N: the button press (R152). -/
  | button
  /-- CREATE, format N: fresh construction of a token (R155). -/
  | create
  /-- LOAD, format B: reconstruct a token from its record (R174). -/
  | load (record : List Byte)
  /-- SAVE, format N: serialize the token (R176). -/
  | save
deriving DecidableEq, Repr

/-- 30_encoding.md R70: the operand list of a command, zero, one or two byte sequences. -/
def Instr.operands : Instr → List (List Byte)
  | .mhenc t => [t]
  | .mhdec t => [t]
  | .crc16 b => [b]
  | .aesenc k p => [k, p]
  | .gen => []
  | .insert => []
  | .button => []
  | .create => []
  | .load t => [t]
  | .save => []

end Sys2Proof
end

