-- ==== Sys2Proof/Machine/State.lean ====
section
/-! DEFINITION. The state of YSIM-CORE as plain data (10_state.md R20 to R38, 20_memory.md R50 to R53), the reasons
a step can stop, and the state after reset (R38, 70_reset_and_hazards.md R215). Beside the block's own state it holds
the environment the step reads: the moves the host has still to make (60_exceptions.md R206) and the answers of the
two ports (R33, R34). -/

namespace Sys2Proof.Machine

/-- R20, the Token Identity: three byte sequences, immutable after construction. Byte 0 is the first byte. -/
structure Identity where
  /-- PUBID, 6 bytes (R21). -/
  pubid : Vector Byte 6
  /-- KEY, 16 bytes (R22). -/
  key : Vector Byte 16
  /-- SECID, 6 bytes (R23). -/
  secid : Vector Byte 6
deriving DecidableEq, Repr

/-- R20, the seven token registers: the identity and the four session registers, unsigned. -/
structure Token where
  id : Identity
  /-- CTR, 16 bits: insertions, persisted (R24). -/
  ctr : Word16
  /-- SCTR, 8 bits: presses since the last insertion (R25). -/
  sctr : BitVec 8
  /-- TMR, 24 bits: the tick count at the last Sanitize (R26). -/
  tmr : Word24
  /-- RND, 16 bits: the draw of the last Sanitize (R27). -/
  rnd : Word16
deriving DecidableEq, Repr

/-- Whether the token registers hold a constructed token, which is what SR.VALID says (R29). R38 gives the empty case
as a state of the machine: the registers "hold no value", modelled by "a state constructor without a token". -/
inductive Held where
  /-- VALID = 0: no CREATE or LOAD has succeeded since reset. -/
  | noToken
  /-- VALID = 1. -/
  | token (t : Token)
deriving DecidableEq, Repr

/-- The error kinds of 60_exceptions.md R185, R186, with the information R189 says each carries. -/
inductive Err where
  | invalidInput
  | invalidLength
  | invalidState
  /-- R189: carries a copy of the record operand. -/
  | formatError (record : List Byte)
  | internal
deriving DecidableEq, Repr

/-- 60_exceptions.md R206: what the host may do, complete. -/
inductive HostMove where
  /-- Reset the block (R215). -/
  | reset
  /-- Write a frame to IBUF and its length to ILEN, start the command, and wait for the response (R51, R53). -/
  | command (frame : List Byte)
  /-- Read OBUF, which has no side effect (20_memory.md R56). -/
  | readResponse
deriving DecidableEq, Repr

/-- The environment's side of the random port and the clock port (R33, R34). The three lists are the answers injected
for the next reads of each primitive, in the order of the reads (R33: "for tests a fixed sequence of answers is
injected"; R82 writes them `rnd=`, `bytes=`, `clk=`); a read past the end of its list is answered by a free value of
Config. -/
structure Ports where
  /-- Answers of `DrawU16()`. -/
  u16s : List Word16
  /-- The concatenated answers of `DrawBytes`. -/
  bytes : List Byte
  /-- Answers of `ClockTicks()`, any natural number each. -/
  ticks : List Nat
  /-- How many port reads the block has made: which free value the next read takes. -/
  reads : Nat
deriving DecidableEq, Repr

structure State where
  /-- PUBID, KEY, SECID, CTR, SCTR, TMR, RND and SR.VALID (R20, R29). -/
  held : Held
  /-- SR.HALT: set by every fatal error, cleared only by reset (R29, R190). -/
  halt : Bool
  /-- IBUF: the command frame; ILEN is its length (R51). -/
  ibuf : List Byte
  /-- OBUF: the response frame; OLEN is its length (R52). -/
  obuf : List Byte
  /-- What the host will do next, first move first: the "pc" of R30 is a place in this list, and it is the host's. -/
  host : List HostMove
  /-- The ports the block reads (R33, R34). -/
  ports : Ports
deriving DecidableEq, Repr

/-- Why the machine would stop without a next state. No constructor: the spec gives every command and every frame an
effect, and a fatal error is a next state with SR.HALT set and a response written (60_exceptions.md R187, R190), so no
step of this machine faults. -/
inductive Fault where
deriving DecidableEq, Repr

/-- Why the model would give an instruction no meaning. -/
inductive Refusal where
  /-- Raised by an arm of exec that has no meaning yet; safe (the run stops). No arm raises it now. -/
  | notModelled (mnemonic : String)
deriving DecidableEq, Repr

/-- R38, R215: after reset SR = 0x00 (no token, not halted) and OLEN = 0. ILEN = 0 stands for "unspecified until the
host writes a frame" (notes/assumptions/2.md). The environment's fields are empty: no move is waiting and no port
answer is injected. -/
def State.reset : State where
  held := .noToken
  halt := false
  ibuf := []
  obuf := []
  host := []
  ports := { u16s := [], bytes := [], ticks := [], reads := 0 }

end Sys2Proof.Machine
end

