-- ==== Sys2Proof/Machine/Flags.lean ====
section
/-! DEFINITION. The status register SR (10_state.md R29), the status codes of a response (30_encoding.md R77) and the
class of each error kind (60_exceptions.md R186). There are no condition codes and no arithmetic flags (R31). -/

namespace Sys2Proof.Machine

/-- R29: SR.VALID is 1 when the token registers hold a constructed token. -/
def State.valid (s : State) : Bool :=
  match s.held with
  | .noToken => false
  | .token _ => true

/-- R29: SR, VALID in bit 0, HALT in bit 1, bits 7:2 read as 0. -/
def State.sr (s : State) : Byte :=
  (if s.valid then 0x01 else 0x00) ||| (if s.halt then 0x02 else 0x00)

/-- R77: STATUS 0 is OK. -/
def statusOk : Byte := 0

/-- R77, R186: the STATUS code of each error kind. -/
def Err.code : Err → Byte
  | .invalidInput => 1
  | .invalidLength => 2
  | .invalidState => 3
  | .formatError _ => 4
  | .internal => 5

/-- R186: `InvalidState` and `Internal` are fatal, the others are caller-input errors. -/
def Err.fatal : Err → Bool
  | .invalidInput => false
  | .invalidLength => false
  | .invalidState => true
  | .formatError _ => false
  | .internal => true

/-- R189: RESULT of an error response, a copy of the record with `FormatError` and empty with every other kind. -/
def Err.info : Err → List Byte
  | .formatError record => record
  | .invalidInput => []
  | .invalidLength => []
  | .invalidState => []
  | .internal => []

end Sys2Proof.Machine
end

