-- ==== Sys2Proof/WellFormed.lean ====
section
/-! DEFINITION. Which commands a frame can carry: every operand is a byte sequence of 0 to 65535 bytes
(30_encoding.md R70, LEN_W of 00_scope.md R8). There is no other condition: what an operand must look like is the
command's own rule. -/

namespace Sys2Proof

/-- R8, R72: a length field is 16 bits, "an operand is at most 65535 bytes". -/
abbrev maxOperand : Nat := 65535

/-- R70: the operands fit their length fields. -/
abbrev Instr.WellFormed (i : Instr) : Prop := ∀ o ∈ i.operands, o.length ≤ maxOperand

end Sys2Proof
end

