-- ==== Sys2Proof/Decode.lean ====
section
/-! DEFINITION. The command frame (30_encoding.md R71 to R73): the byte-order helpers, the total decoder of R80 with
its rejections by name, the encoder written from the same table, and the host's `decodeTableWord`. -/

namespace Sys2Proof

/-- 00_scope.md R10: `le_k(v)[i] = (v >> (8*i)) & 0xFF` for i in 0 to k-1. -/
def leBytes (k v : Nat) : List Byte :=
  (List.range k).map fun i => BitVec.ofNat 8 (v >>> (8 * i))

/-- 30_encoding.md R72: `LEN = IBUF[p] + 256 * IBUF[p+1]`, unsigned. -/
def leValue (lo hi : Byte) : Nat := lo.toNat + 256 * hi.toNat

/-- Why a frame selects no command. Every one of them is answered with `InvalidInput` (R79, R80). -/
inductive DecodeError where
  /-- R80: ILEN is 0. -/
  | emptyFrame
  /-- R79: bits 7 to 4 of the opcode byte are set, or `op` is 0x0 or 0xB to 0xF. -/
  | illegalOpcode (opc : Byte)
  /-- R80: a length field runs past the end of the frame. -/
  | lengthCut
  /-- R80: an operand runs past the end of the frame. -/
  | operandCut
  /-- R80: bytes remain after the last field of the format. -/
  | bytesRemain
deriving DecidableEq, Repr

/-- R80, the body of the decoder's loop: one length field and the operand it announces, with what follows it. -/
def takeOperand : List Byte → Except DecodeError (List Byte × List Byte)
  | lo :: hi :: rest =>
    if rest.length < leValue lo hi then .error .operandCut
    else .ok (rest.take (leValue lo hi), rest.drop (leValue lo hi))
  | [_] => .error .lengthCut
  | [] => .error .lengthCut

/-- R80: `if pos != ILEN: raise InvalidInput()`. -/
def endOfFrame (i : Instr) : List Byte → Except DecodeError Instr
  | [] => .ok i
  | _ :: _ => .error .bytesRemain

/-- R71, format B: one operand. -/
def formatB (mk : List Byte → Instr) (rest : List Byte) : Except DecodeError Instr :=
  match takeOperand rest with
  | .error e => .error e
  | .ok (d, rest) => endOfFrame (mk d) rest

/-- R71, format K: two operands. -/
def formatK (mk : List Byte → List Byte → Instr) (rest : List Byte) : Except DecodeError Instr :=
  match takeOperand rest with
  | .error e => .error e
  | .ok (d, rest) => formatB (mk d) rest

/-- R80, the decoder, total on every byte sequence: `if b[7:4] != 0 or b[3:0] = 0 or b[3:0] > 0xA: raise
InvalidInput()`, then the operands of the format, which R74's opcode map gives. -/
def decode : List Byte → Except DecodeError Instr
  | [] => .error .emptyFrame
  | b :: rest =>
    if b.extractLsb' 4 4 ≠ 0 then .error (.illegalOpcode b)
    else match (b.extractLsb' 0 4).toNat with
      | 0x1 => formatB .mhenc rest
      | 0x2 => formatB .mhdec rest
      | 0x3 => formatB .crc16 rest
      | 0x4 => formatK .aesenc rest
      | 0x5 => endOfFrame .gen rest
      | 0x6 => endOfFrame .insert rest
      | 0x7 => endOfFrame .button rest
      | 0x8 => endOfFrame .create rest
      | 0x9 => formatB .load rest
      | 0xA => endOfFrame .save rest
      | _ => .error (.illegalOpcode b)

/-- R74: the opcode byte OPC of each command. -/
def Instr.opcode : Instr → Byte
  | .mhenc _ => 0x01
  | .mhdec _ => 0x02
  | .crc16 _ => 0x03
  | .aesenc _ _ => 0x04
  | .gen => 0x05
  | .insert => 0x06
  | .button => 0x07
  | .create => 0x08
  | .load _ => 0x09
  | .save => 0x0A

/-- R71: one operand as it lies in a frame, `le_2` of its length and then its bytes. -/
def encodeOperand (d : List Byte) : List Byte := leBytes 2 d.length ++ d

/-- R71: the command frame of a command. -/
def encode (i : Instr) : List Byte := i.opcode :: i.operands.flatMap encodeOperand

/-- The k bytes of w, the least significant first: a frame's first byte holds bits 7..0 of the table's word. -/
def bytesOfWord : Nat → Nat → List Byte
  | 0, _ => []
  | k + 1, w => BitVec.ofNat 8 w :: bytesOfWord k (w / 256)

/-- R71: how long the frame that begins with these bytes is, a byte not given read as 0. -/
def announcedLength (f : List Byte) : Nat :=
  match (f.getD 0 0).toNat with
  | 0x1 | 0x2 | 0x3 | 0x9 => 3 + leValue (f.getD 1 0) (f.getD 2 0)
  | 0x4 =>
    let len1 := leValue (f.getD 1 0) (f.getD 2 0)
    5 + len1 + leValue (f.getD (3 + len1) 0) (f.getD (4 + len1) 0)
  | _ => 1

/-- The frame of an instruction whose first nbits bits are w and whose further bits are 0, as long as R71 makes it:
the table gives the opcode byte only, so its operands are empty. -/
def tableFrame (nbits w : Nat) : List Byte :=
  let given := bytesOfWord ((nbits + 7) / 8) w
  given ++ List.replicate (announcedLength given - given.length) 0

/-- The instruction the decoder reads from the table's word w of nbits bits. -/
def decodeTableWord (nbits w : Nat) : Option Instr := (decode (tableFrame nbits w)).toOption

end Sys2Proof
end

