-- ==== Sys2Proof/Machine/Operands.lean ====
section
/-! DEFINITION. How operands and results are read and written as text (00_scope.md R10, 40_modhex.md R100): ASCII
codes, the two digit alphabets, `hex` and `unhex`. -/

namespace Sys2Proof.Machine

/-- R10, D7: a text as the bytes that hold its ASCII codes. -/
def ascii (cs : List Char) : List Byte := cs.map fun c => BitVec.ofNat 8 c.toNat

/-- R10: the digit string of `hex`, lowercase. -/
def hexDigits : List Byte :=
  ascii ['0', '1', '2', '3', '4', '5', '6', '7', '8', '9', 'a', 'b', 'c', 'd', 'e', 'f']

/-- R100: the modhex alphabet, index = nibble value. -/
def modhexLetters : List Byte :=
  ascii ['c', 'b', 'd', 'e', 'f', 'g', 'h', 'i', 'j', 'k', 'l', 'n', 'r', 't', 'u', 'v']

/-- R10: the lowercase hexadecimal digit of a nibble. -/
def hexDigit (n : Nibble) : Byte := hexDigits.getD n.toNat 0

/-- R101: `MODHEX[n]`. -/
def modhexLetter (n : Nibble) : Byte := modhexLetters.getD n.toNat 0

/-- The nibble `ch - base + offset` when ch lies in [lo, hi]. -/
def nibbleInRange (lo hi : Byte) (offset : Nat) (ch : Byte) : Option Nibble :=
  if lo ≤ ch ∧ ch ≤ hi then some (BitVec.ofNat 4 (ch.toNat - lo.toNat + offset)) else none

/-- 45_persistence.md R169: the value of a lowercase hex character, none outside the class. -/
def nibbleOfLowerHex (ch : Byte) : Option Nibble :=
  (nibbleInRange 0x30 0x39 0 ch).or (nibbleInRange 0x61 0x66 10 ch)

/-- R101 `NibbleOfHex`: case-insensitive, none for any other character. -/
def nibbleOfHex (ch : Byte) : Option Nibble :=
  (nibbleOfLowerHex ch).or (nibbleInRange 0x41 0x46 10 ch)

/-- R103 `NibbleOfModhex`: the index of ch in the alphabet, lowercase only, none for any other character. -/
def nibbleOfModhex (ch : Byte) : Option Nibble :=
  if ch = 0x63 then some 0 else if ch = 0x62 then some 1 else if ch = 0x64 then some 2 else if ch = 0x65 then some 3
  else if ch = 0x66 then some 4 else if ch = 0x67 then some 5 else if ch = 0x68 then some 6 else if ch = 0x69 then some 7
  else if ch = 0x6A then some 8 else if ch = 0x6B then some 9 else if ch = 0x6C then some 10 else if ch = 0x6E then some 11
  else if ch = 0x72 then some 12 else if ch = 0x74 then some 13 else if ch = 0x75 then some 14 else if ch = 0x76 then some 15
  else none

/-- R101: validate every character first; the nibbles of a text, or none if any character is outside the class f. -/
def nibbles (f : Byte → Option Nibble) : List Byte → Option (List Nibble)
  | [] => some []
  | ch :: rest =>
    match f ch, nibbles f rest with
    | some n, some ns => some (n :: ns)
    | _, _ => none

/-- R10, G2: the two nibbles of every byte, the high nibble first. -/
def unpackNibbles (b : List Byte) : List Nibble :=
  b.flatMap fun x => [x.extractLsb' 4 4, x.extractLsb' 0 4]

/-- R10, G2: the bytes whose nibbles these are, the high nibble first; a last odd nibble makes no byte. -/
def packNibbles : List Nibble → List Byte
  | hi :: lo :: rest => (hi ++ lo : BitVec (4 + 4)) :: packNibbles rest
  | [_] => []
  | [] => []

/-- R10: `hex(b)`, the lowercase hexadecimal text of a byte sequence. -/
def hex (b : List Byte) : List Byte := (unpackNibbles b).map hexDigit

/-- R10: `unhex(t)`, the inverse of `hex` on texts of even length over `0-9a-f`; none on any other text. -/
def unhex (t : List Byte) : Option (List Byte) :=
  if t.length % 2 = 0 then (nibbles nibbleOfLowerHex t).map packNibbles else none

/-- A register of n bytes from a byte sequence of that length. -/
def vectorOfList (n : Nat) (l : List Byte) (h : l.length = n) : Vector Byte n := ⟨l.toArray, by simpa using h⟩

/-- The register's value when the byte sequence has its length. -/
def vectorOfList? (n : Nat) (l : List Byte) : Option (Vector Byte n) :=
  if h : l.length = n then some (vectorOfList n l h) else none

end Sys2Proof.Machine
end

