-- ==== Sys2Proof/Machine/Ops.lean ====
section
/-! DEFINITION. The named operations every command is written with: reading a port (10_state.md R33, R34), writing the
response (30_encoding.md R76), raising an error, which is this block's taking of an exception (60_exceptions.md R187 to
R191), the checks every command begins with, and Reset. There is no return from an exception (R196): after a
caller-input error the host issues its next command, and a fatal error leaves only by reset. -/

namespace Sys2Proof.Machine

/-- R33 `DrawU16()`: the next injected answer, or a free value. One read of the random port. -/
def Ports.drawU16 (p : Ports) : Word16 × Ports :=
  match p.u16s with
  | v :: rest => (v, { p with u16s := rest, reads := p.reads + 1 })
  | [] => (Config.freeU16 p.reads, { p with reads := p.reads + 1 })

/-- R33 `DrawBytes(n)`: n bytes, the injected ones first, a free value for each that is not injected. One read of the
random port. -/
def Ports.drawBytes (n : Nat) (p : Ports) : Vector Byte n × Ports :=
  (vectorOfList n ((List.range n).map fun i => p.bytes.getD i (Config.freeByte p.reads i)) (by simp),
    { p with bytes := p.bytes.drop n, reads := p.reads + 1 })

/-- R34 `ClockTicks()`: the next injected answer, or a free value. One read of the clock port. -/
def Ports.clockTicks (p : Ports) : Nat × Ports :=
  match p.ticks with
  | v :: rest => (v, { p with ticks := rest, reads := p.reads + 1 })
  | [] => (Config.freeTicks p.reads, { p with reads := p.reads + 1 })

/-- R76: the response frame STATUS, SR, RLEN as `le_2`, RESULT. -/
def responseFrame (status sr : Byte) (result : List Byte) : List Byte :=
  status :: sr :: (leBytes 2 result.length ++ result)

/-- R76: write OBUF, with SR as it stands now. -/
def State.respond (s : State) (status : Byte) (result : List Byte) : State :=
  { s with obuf := responseFrame status s.sr result }

/-- R187, R190: if the kind is fatal SR.HALT is set first; then the response carries the kind's code, SR after that,
and the information of R189. Nothing else is saved and control goes nowhere. -/
def State.raise (s : State) (e : Err) : State :=
  ({ s with halt := s.halt || e.fatal } : State).respond e.code e.info

/-- The end of a command: `return v` is status OK with result v (R11, R78), `raise` is R187. -/
def State.finish (s : State) : Except Err (List Byte) → State
  | .ok v => s.respond statusOk v
  | .error e => s.raise e

/-- R191: every command starts with `if SR.HALT = 1: raise InvalidState()`; otherwise it runs its body and ends. -/
def command (body : State → State × Except Err (List Byte)) (s : State) : Host.Outcome State Fault Refusal :=
  if s.halt then .next (s.raise .invalidState)
  else .next ((body s).1.finish (body s).2)

/-- R193: a command that needs a token raises `InvalidState` when SR.VALID = 0, before it reads or writes anything. -/
def withToken (body : Token → State → State × Except Err (List Byte)) (s : State) : State × Except Err (List Byte) :=
  match s.held with
  | .noToken => (s, .error .invalidState)
  | .token t => body t s

/-- R79, R80, R192: a frame that selects no command is `InvalidInput`, after the halt check. -/
def rejectFrame (s : State) : Host.Outcome State Fault Refusal :=
  command (fun s => (s, .error .invalidInput)) s

/-- R51, R53: the host writes the frame to IBUF and its length to ILEN; the core only reads it. -/
def writeFrame (frame : List Byte) (s : State) : State := { s with ibuf := frame }

/-- R215, R216: the block's own state as R38 says; nothing survives. The host's moves and the ports are outside the
block and go on. -/
def resetBlock (s : State) : State :=
  { State.reset with host := s.host, ports := s.ports }

end Sys2Proof.Machine
end

