-- ==== Sys2Proof/Machine/Aes.lean ====
section
/-! DEFINITION. The AES-128 cipher core: AESENC (42_aes128.md R120 to R132). The cipher's state and a round key are
byte sequences of 16 bytes in the order of the input (R123). -/

namespace Sys2Proof.Machine

/-- R124 `xtime`: multiply by x in GF(2^8). -/
def xtime (a : Byte) : Byte := if a.getLsbD 7 then (a <<< 1) ^^^ 0x1B else a <<< 1

/-- R124, the loop of `gmul` over the k low bits of b. -/
def gmulLoop : Nat → Byte → Byte → Byte → Byte
  | 0, _, _, r => r
  | k + 1, a, b, r => gmulLoop k (xtime a) (b >>> 1) (if b.getLsbD 0 then r ^^^ a else r)

/-- R124 `gmul`: the product of a and b in GF(2^8). -/
def gmul (a b : Byte) : Byte := gmulLoop 8 a b 0

/-- R125: the S-box, row `v >> 4`, column `v & 0xF`. -/
def sboxTable : List (List Byte) :=
  [[0x63, 0x7c, 0x77, 0x7b, 0xf2, 0x6b, 0x6f, 0xc5, 0x30, 0x01, 0x67, 0x2b, 0xfe, 0xd7, 0xab, 0x76],
   [0xca, 0x82, 0xc9, 0x7d, 0xfa, 0x59, 0x47, 0xf0, 0xad, 0xd4, 0xa2, 0xaf, 0x9c, 0xa4, 0x72, 0xc0],
   [0xb7, 0xfd, 0x93, 0x26, 0x36, 0x3f, 0xf7, 0xcc, 0x34, 0xa5, 0xe5, 0xf1, 0x71, 0xd8, 0x31, 0x15],
   [0x04, 0xc7, 0x23, 0xc3, 0x18, 0x96, 0x05, 0x9a, 0x07, 0x12, 0x80, 0xe2, 0xeb, 0x27, 0xb2, 0x75],
   [0x09, 0x83, 0x2c, 0x1a, 0x1b, 0x6e, 0x5a, 0xa0, 0x52, 0x3b, 0xd6, 0xb3, 0x29, 0xe3, 0x2f, 0x84],
   [0x53, 0xd1, 0x00, 0xed, 0x20, 0xfc, 0xb1, 0x5b, 0x6a, 0xcb, 0xbe, 0x39, 0x4a, 0x4c, 0x58, 0xcf],
   [0xd0, 0xef, 0xaa, 0xfb, 0x43, 0x4d, 0x33, 0x85, 0x45, 0xf9, 0x02, 0x7f, 0x50, 0x3c, 0x9f, 0xa8],
   [0x51, 0xa3, 0x40, 0x8f, 0x92, 0x9d, 0x38, 0xf5, 0xbc, 0xb6, 0xda, 0x21, 0x10, 0xff, 0xf3, 0xd2],
   [0xcd, 0x0c, 0x13, 0xec, 0x5f, 0x97, 0x44, 0x17, 0xc4, 0xa7, 0x7e, 0x3d, 0x64, 0x5d, 0x19, 0x73],
   [0x60, 0x81, 0x4f, 0xdc, 0x22, 0x2a, 0x90, 0x88, 0x46, 0xee, 0xb8, 0x14, 0xde, 0x5e, 0x0b, 0xdb],
   [0xe0, 0x32, 0x3a, 0x0a, 0x49, 0x06, 0x24, 0x5c, 0xc2, 0xd3, 0xac, 0x62, 0x91, 0x95, 0xe4, 0x79],
   [0xe7, 0xc8, 0x37, 0x6d, 0x8d, 0xd5, 0x4e, 0xa9, 0x6c, 0x56, 0xf4, 0xea, 0x65, 0x7a, 0xae, 0x08],
   [0xba, 0x78, 0x25, 0x2e, 0x1c, 0xa6, 0xb4, 0xc6, 0xe8, 0xdd, 0x74, 0x1f, 0x4b, 0xbd, 0x8b, 0x8a],
   [0x70, 0x3e, 0xb5, 0x66, 0x48, 0x03, 0xf6, 0x0e, 0x61, 0x35, 0x57, 0xb9, 0x86, 0xc1, 0x1d, 0x9e],
   [0xe1, 0xf8, 0x98, 0x11, 0x69, 0xd9, 0x8e, 0x94, 0x9b, 0x1e, 0x87, 0xe9, 0xce, 0x55, 0x28, 0xdf],
   [0x8c, 0xa1, 0x89, 0x0d, 0xbf, 0xe6, 0x42, 0x68, 0x41, 0x99, 0x2d, 0x0f, 0xb0, 0x54, 0xbb, 0x16]]

/-- R125: `SBOX[v]`. -/
def sbox (v : Byte) : Byte := (sboxTable.getD (v.toNat / 16) []).getD (v.toNat % 16) 0

/-- R126: every byte of the state by its S-box value. -/
def subBytes (s : List Byte) : List Byte := s.map sbox

/-- R127: `SR_IDX`, new position i takes the byte at old position `SR_IDX[i]`. -/
def shiftRowsIndex : List Nat := [0, 5, 10, 15, 4, 9, 14, 3, 8, 13, 2, 7, 12, 1, 6, 11]

/-- R127: row r rotated left by r columns. -/
def shiftRows (s : List Byte) : List Byte := shiftRowsIndex.map fun i => s.getD i 0

/-- R128: one column. -/
def mixColumn (a0 a1 a2 a3 : Byte) : List Byte :=
  [gmul a0 2 ^^^ gmul a1 3 ^^^ a2 ^^^ a3,
   a0 ^^^ gmul a1 2 ^^^ gmul a2 3 ^^^ a3,
   a0 ^^^ a1 ^^^ gmul a2 2 ^^^ gmul a3 3,
   gmul a0 3 ^^^ a1 ^^^ a2 ^^^ gmul a3 2]

/-- R128: each column, four consecutive bytes, on its own. -/
def mixColumns : List Byte → List Byte
  | a0 :: a1 :: a2 :: a3 :: rest => mixColumn a0 a1 a2 a3 ++ mixColumns rest
  | _ => []

/-- R129: bytewise exclusive-or of the state with a round key. -/
def addRoundKey (s rk : List Byte) : List Byte := List.zipWith (· ^^^ ·) s rk

/-- R123: a word of the key schedule, 4 bytes in sequence order. -/
structure KeyWord where
  b0 : Byte
  b1 : Byte
  b2 : Byte
  b3 : Byte
deriving DecidableEq, Repr

/-- R130: bytewise exclusive-or of two words. -/
def xorWord (x y : KeyWord) : KeyWord := ⟨x.b0 ^^^ y.b0, x.b1 ^^^ y.b1, x.b2 ^^^ y.b2, x.b3 ^^^ y.b3⟩

/-- R130 RotWord: rotate left by one byte. -/
def rotWord (t : KeyWord) : KeyWord := ⟨t.b1, t.b2, t.b3, t.b0⟩

/-- R130 SubWord. -/
def subWord (t : KeyWord) : KeyWord := ⟨sbox t.b0, sbox t.b1, sbox t.b2, sbox t.b3⟩

/-- R130: `RCON[1] = 1` and `RCON[j+1] = xtime(RCON[j])`, for j from 1 to 10. -/
def rcon : Nat → Byte
  | 0 => 0
  | 1 => 1
  | j + 2 => xtime (rcon (j + 1))

/-- R129: the four words of a round key laid end to end. -/
def wordBytes (w : KeyWord) : List Byte := [w.b0, w.b1, w.b2, w.b3]

/-- R130: w[i] from w[i-4] and w[i-1], for i from 4. -/
def keyWordAt (i : Nat) (w4 w1 : KeyWord) : KeyWord :=
  if i % 4 = 0 then
    let t := subWord (rotWord w1)
    xorWord w4 ⟨t.b0 ^^^ rcon (i / 4), t.b1, t.b2, t.b3⟩
  else xorWord w4 w1

/-- R130: the words w[i] to w[i+k-1], given the four words before them, oldest first. -/
def expandFrom : Nat → Nat → KeyWord → KeyWord → KeyWord → KeyWord → List KeyWord
  | 0, _, _, _, _, _ => []
  | k + 1, i, a, b, c, d =>
    let e := keyWordAt i a d
    e :: expandFrom k (i + 1) b c d e

/-- R130 `KeyExpansion`: the 44 words of a 16-byte key. -/
def keyExpansion (k : List Byte) : List KeyWord :=
  let first j : KeyWord := ⟨k.getD (4 * j) 0, k.getD (4 * j + 1) 0, k.getD (4 * j + 2) 0, k.getD (4 * j + 3) 0⟩
  first 0 :: first 1 :: first 2 :: first 3 :: expandFrom 40 4 (first 0) (first 1) (first 2) (first 3)

/-- R129 `RoundKey(w, r)`: the words w[4r] to w[4r+3] end to end. -/
def roundKey (w : List KeyWord) (r : Nat) : List Byte := ((w.drop (4 * r)).take 4).flatMap wordBytes

/-- R121: one of the rounds 1 to 9. -/
def aesRound (w : List KeyWord) (s : List Byte) (r : Nat) : List Byte :=
  addRoundKey (mixColumns (shiftRows (subBytes s))) (roundKey w r)

/-- R121: the last round, which has no MixColumns. -/
def aesLastRound (w : List KeyWord) (s : List Byte) : List Byte :=
  addRoundKey (shiftRows (subBytes s)) (roundKey w 10)

/-- R121: the cipher on a 16-byte block with an expanded key. -/
def aesBlock (w : List KeyWord) (p : List Byte) : List Byte :=
  aesLastRound w ([1, 2, 3, 4, 5, 6, 7, 8, 9].foldl (aesRound w) (addRoundKey p (roundKey w 0)))

/-- R121 `Aes128Enc`: the key's length is checked first (`InvalidState`), then the block's (`Internal`). -/
def aes128Enc (k p : List Byte) : Except Err (List Byte) :=
  if k.length ≠ 16 then .error .invalidState
  else if p.length ≠ 16 then .error .internal
  else .ok (aesBlock (keyExpansion k) p)

/-- R121: AESENC, on the operands alone. -/
def execAesenc (k p : List Byte) (s : State) : Host.Outcome State Fault Refusal :=
  command (fun s => (s, aes128Enc k p)) s

end Sys2Proof.Machine
end

