-- ==== Sys2Proof/Machine/Crc.lean ====
section
/-! DEFINITION. The CRC Engine: CRC16 (41_crc16.md R110 to R114). -/

namespace Sys2Proof.Machine

/-- R110: the accumulator's start value (normative, 93_implementation_defined.md G7). -/
def crcInit : Word16 := 0x5AF0

/-- R110: the feedback constant. -/
def crcPoly : Word16 := 0x8408

/-- R110: the only legal input length. -/
def crcLen : Nat := 14

/-- R111, one round: test the low bit of the unshifted accumulator, shift right by one with zero fill, and if the bit
was 1 exclusive-or with the feedback constant. -/
def crcRound (acc : Word16) : Word16 :=
  if acc.getLsbD 0 then (acc >>> 1) ^^^ crcPoly else acc >>> 1

/-- R111: k rounds. -/
def crcRounds : Nat → Word16 → Word16
  | 0, acc => acc
  | k + 1, acc => crcRounds k (crcRound acc)

/-- R111: `acc ^ zext_16(b)`, then 8 rounds. -/
def crcByte (acc : Word16) (b : Byte) : Word16 := crcRounds 8 (acc ^^^ b.zeroExtend 16)

/-- R111 `Crc16`: byte 0 first, no final operation; `InvalidLength` unless the input is 14 bytes. -/
def crc16 (b : List Byte) : Except Err Word16 :=
  if b.length ≠ crcLen then .error .invalidLength else .ok (b.foldl crcByte crcInit)

/-- R111: CRC16, the result `le_2` of the checksum. -/
def execCrc16 (b : List Byte) (s : State) : Host.Outcome State Fault Refusal :=
  command (fun s => (s, (crc16 b).map fun c => leBytes 2 c.toNat)) s

end Sys2Proof.Machine
end

