-- ==== Sys2Proof/Machine/Modhex.lean ====
section
/-! DEFINITION. The Modhex Codec: MHENC and MHDEC (40_modhex.md R100 to R105). -/

namespace Sys2Proof.Machine

/-- R101 `MhEnc`: character-for-character substitution, `InvalidInput` if any character is outside `0-9a-fA-F`. -/
def mhEnc (t : List Byte) : Except Err (List Byte) :=
  match nibbles nibbleOfHex t with
  | none => .error .invalidInput
  | some ns => .ok (ns.map modhexLetter)

/-- R103 `MhDec`: the inverse substitution, `InvalidInput` if any character is outside the lowercase alphabet. -/
def mhDec (t : List Byte) : Except Err (List Byte) :=
  match nibbles nibbleOfModhex t with
  | none => .error .invalidInput
  | some ns => .ok (ns.map hexDigit)

/-- R10, R102: `MhEnc(hex(b))`, written as R102 gives it, `MODHEX[b[i] >> 4]`, `MODHEX[b[i] & 0xF]` for each byte. -/
def modhexOfBytes (b : List Byte) : List Byte := (unpackNibbles b).map modhexLetter

/-- R101: MHENC. -/
def execMhenc (t : List Byte) (s : State) : Host.Outcome State Fault Refusal :=
  command (fun s => (s, mhEnc t)) s

/-- R103: MHDEC. -/
def execMhdec (t : List Byte) (s : State) : Host.Outcome State Fault Refusal :=
  command (fun s => (s, mhDec t)) s

end Sys2Proof.Machine
end

