-- ==== Sys2Proof/Machine/Pipeline.lean ====
section
/-! DEFINITION. The OTP Cipher Pipeline: the payload layout, `Generate` and GEN (43_otp_pipeline.md R140 to R148). -/

namespace Sys2Proof.Machine

/-- R140: the 14-byte plaintext buffer `SECID ‖ le_2(CTR) ‖ le_3(TMR) ‖ le_1(SCTR) ‖ le_2(RND)`. -/
def plaintext (t : Token) : List Byte :=
  t.id.secid.toList ++ leBytes 2 t.ctr.toNat ++ leBytes 3 t.tmr.toNat ++ leBytes 1 t.sctr.toNat ++ leBytes 2 t.rnd.toNat

/-- R144 `Generate`, on the seven token registers and nothing else: buffer, checksum, payload, encryption, text. The
checks of the called units stay in, as R122 and R146 allow. -/
def generate (t : Token) : Except Err (List Byte) := do
  let b := plaintext t
  let crc ← crc16 b
  let c ← aes128Enc t.id.key.toList (b ++ leBytes 2 crc.toNat)
  let pub ← mhEnc (hex t.id.pubid.toList)
  let text ← mhEnc (hex c)
  return pub ++ text

/-- R146: an error that escapes `Generate` is reported as the fatal kind it is, a caller-input kind as `Internal`. -/
def pipelineErr (e : Err) : Err := if e.fatal then e else .internal

/-- R144, R146: the pipeline as a command reports it. -/
def runPipeline (t : Token) : Except Err (List Byte) := (generate t).mapError pipelineErr

/-- R145: GEN, on the registers as they stand; no Sanitize, no increment. -/
def execGen (s : State) : Host.Outcome State Fault Refusal :=
  command (withToken fun t s => (s, runPipeline t)) s

end Sys2Proof.Machine
end

