-- ==== Sys2Proof/Machine/Transitions.lean ====
section
/-! DEFINITION. The State Transition Engine: Sanitize, INSERT, BUTTON, and CREATE (44_transitions.md R150 to R157). -/

namespace Sys2Proof.Machine

/-- R150 `Sanitize`, on the registers it reads (the identity is carried through; the old RND and TMR are lost): one
`DrawU16()`, the two defensive masks, one `ClockTicks()` of which the low 24 bits are kept. -/
def sanitize (id : Identity) (ctr : Word16) (sctr : BitVec 8) (p : Ports) : Token × Ports :=
  let draw := p.drawU16
  let clock := draw.2.clockTicks
  ({ id := id, ctr := ctr &&& 0xFFFF, sctr := sctr &&& 0xFF, tmr := BitVec.ofNat 24 clock.1, rnd := draw.1 }, clock.2)

/-- R151 `Insert`: `CTR <- (CTR + 1) mod 65536`, `SCTR <- 0`, Sanitize. -/
def insertion (id : Identity) (ctr : Word16) (p : Ports) : Token × Ports := sanitize id (ctr + 1) 0 p

/-- A transition has run: the registers hold its token (SR.VALID = 1) and the ports stand after its reads. -/
def State.hold (s : State) (r : Token × Ports) : State := { s with held := .token r.1, ports := r.2 }

/-- R151: INSERT. -/
def execInsert (s : State) : Host.Outcome State Fault Refusal :=
  command (withToken fun t s => (s.hold (insertion t.id t.ctr s.ports), .ok [])) s

/-- R152: BUTTON: `SCTR <- (SCTR + 1) mod 256`, Sanitize, then the pipeline on the new registers. -/
def execButton (s : State) : Host.Outcome State Fault Refusal :=
  command (withToken fun t s =>
    let r := sanitize t.id t.ctr (t.sctr + 1) s.ports
    (s.hold r, runPipeline r.1)) s

/-- R155: the identity drawn by CREATE: `DrawBytes(6)`, `DrawBytes(16)`, `DrawBytes(6)` in that order. -/
def drawIdentity (p : Ports) : Identity × Ports :=
  let pub := p.drawBytes 6
  let key := pub.2.drawBytes 16
  let sec := key.2.drawBytes 6
  ({ pubid := pub.1, key := key.1, secid := sec.1 }, sec.2)

/-- R155: CREATE: a drawn identity, CTR = 0, VALID = 1, then the implicit insertion. A token held is replaced (R194). -/
def execCreate (s : State) : Host.Outcome State Fault Refusal :=
  command (fun s =>
    let d := drawIdentity s.ports
    (s.hold (insertion d.1 0 d.2), .ok [])) s

end Sys2Proof.Machine
end

