-- ==== Sys2Proof/Machine/Persistence.lean ====
section
/-! DEFINITION. The Persistence Format Adapter: the record, `Format`, `Parse`, LOAD and SAVE (45_persistence.md R165 to
R179). -/

namespace Sys2Proof.Machine

/-- R167: the line terminator, LF. -/
def lineFeed : Byte := 0x0A

/-- R166: line 1, the 17 characters of the header. -/
def headerLine : List Byte :=
  ascii ['Y', 'u', 'b', 'i', 's', 'i', 'm', ' ', 'T', 'o', 'k', 'e', 'n', ' ', '0', '.', '1']

/-- R168: the label of line 2, colon and one space included. -/
def pubidLabel : List Byte := ascii ['P', 'u', 'b', 'l', 'i', 'c', ' ', 'I', 'D', ':', ' ']

/-- R168: the label of line 3. -/
def keyLabel : List Byte :=
  ascii ['S', 'e', 'c', 'r', 'e', 't', ' ', 'A', 'E', 'S', ' ', 'K', 'e', 'y', ':', ' ']

/-- R168: the label of line 4. -/
def secidLabel : List Byte := ascii ['S', 'e', 'c', 'r', 'e', 't', ' ', 'I', 'D', ':', ' ']

/-- R168: the label of line 5. -/
def counterLabel : List Byte := ascii ['C', 'o', 'u', 'n', 't', 'e', 'r', ':', ' ']

/-- R175: the decimal digit of v mod 10. -/
def decimalDigit (v : Nat) : Byte := BitVec.ofNat 8 (0x30 + v % 10)

/-- R175 `dec`, at most `fuel` digits. -/
def decimalLoop : Nat → Nat → List Byte
  | 0, _ => []
  | fuel + 1, v => if v < 10 then [decimalDigit v] else decimalLoop fuel (v / 10) ++ [decimalDigit v]

/-- R175 `dec(v)`, v in [0, 65535]: the shortest decimal numeral, at most 5 digits. -/
def decimal (v : Nat) : List Byte := decimalLoop 5 v

/-- R175 `Format`: the five lines, each ended by LF. -/
def format (id : Identity) (ctr : Word16) : List Byte :=
  headerLine ++ [lineFeed]
    ++ (pubidLabel ++ modhexOfBytes id.pubid.toList ++ [lineFeed])
    ++ (keyLabel ++ hex id.key.toList ++ [lineFeed])
    ++ (secidLabel ++ hex id.secid.toList ++ [lineFeed])
    ++ (counterLabel ++ decimal ctr.toNat ++ [lineFeed])

/-- R177: the text without its last character if that character is LF. -/
def dropFinalLf (t : List Byte) : List Byte := if t.getLast? = some lineFeed then t.dropLast else t

/-- R177: the pieces between LF characters; k LFs give k+1 pieces. -/
def splitLines : List Byte → List (List Byte)
  | [] => [[]]
  | ch :: rest =>
    if ch = lineFeed then [] :: splitLines rest
    else match splitLines rest with
      | [] => [[ch]]
      | line :: lines => (ch :: line) :: lines

/-- R168: whitespace is SP and HT. -/
def isBlank (ch : Byte) : Bool := ch = 0x20 || ch = 0x09

/-- R168: every leading and every trailing whitespace character removed. -/
def trim (v : List Byte) : List Byte := ((v.dropWhile isBlank).reverse.dropWhile isBlank).reverse

/-- R177 `Field`: the trimmed value after a label at the very start of the line, none if the label is not there. -/
def fieldValue (label line : List Byte) : Option (List Byte) :=
  if label.isPrefixOf line then some (trim (line.drop label.length)) else none

/-- R171, R172: a value of exactly 2n lowercase hex characters is n bytes. -/
def hexField (n : Nat) (v : List Byte) : Option (Vector Byte n) :=
  if v.length = 2 * n then (unhex v).bind (vectorOfList? n) else none

/-- R170: a value of exactly 2n modhex characters is `unhex(MhDec(value))`, n bytes. -/
def modhexField (n : Nat) (v : List Byte) : Option (Vector Byte n) :=
  match mhDec v with
  | .ok h => hexField n h
  | .error _ => none

/-- R169: the value of a decimal digit. -/
def digitValue (ch : Byte) : Option Nat :=
  if (0x30 : Byte) ≤ ch ∧ ch ≤ (0x39 : Byte) then some (ch.toNat - 0x30) else none

/-- R173: the value of a decimal numeral, most significant digit first, after the digits read so far. -/
def decimalValue : Nat → List Byte → Option Nat
  | acc, [] => some acc
  | acc, ch :: rest => (digitValue ch).bind fun d => decimalValue (10 * acc + d) rest

/-- R173: 1 to 5 decimal digits of value at most 65535. -/
def counterField (v : List Byte) : Option Word16 :=
  if 1 ≤ v.length ∧ v.length ≤ 5 then
    (decimalValue 0 v).bind fun n => if n ≤ 65535 then some (BitVec.ofNat 16 n) else none
  else none

/-- R177: the four persisted fields of the lines, none if there are not exactly five or any check fails. -/
def parseLines : List (List Byte) → Option (Identity × Word16)
  | [l0, l1, l2, l3, l4] =>
    if l0 = headerLine then do
      let pub ← (fieldValue pubidLabel l1).bind (modhexField 6)
      let key ← (fieldValue keyLabel l2).bind (hexField 16)
      let sec ← (fieldValue secidLabel l3).bind (hexField 6)
      let ctr ← (fieldValue counterLabel l4).bind counterField
      return ({ pubid := pub, key := key, secid := sec }, ctr)
    else none
  | _ => none

/-- R177 `Parse`: the four persisted fields, or one `FormatError` that carries the whole input. -/
def parse (t : List Byte) : Except Err (Identity × Word16) :=
  match parseLines (splitLines (dropFinalLf t)) with
  | some r => .ok r
  | none => .error (.formatError t)

/-- R174: LOAD: `Parse`, then the registers from the record, VALID = 1, then the implicit insertion; nothing is written
when `Parse` fails. A token held is replaced (R194). -/
def execLoad (t : List Byte) (s : State) : Host.Outcome State Fault Refusal :=
  command (fun s =>
    match parse t with
    | .error e => (s, .error e)
    | .ok (id, ctr) => (s.hold (insertion id ctr s.ports), .ok [])) s

/-- R176: SAVE. -/
def execSave (s : State) : Host.Outcome State Fault Refusal :=
  command (withToken fun t s => (s, .ok (format t.id t.ctr))) s

end Sys2Proof.Machine
end

