-- ==== Sys2Proof/Machine/Dispatch.lean ====
section
/-! DEFINITION. One arm per command of 30_encoding.md R74, each one call of its meaning. -/

namespace Sys2Proof.Machine

def exec (i : Instr) (s : State) : Host.Outcome State Fault Refusal :=
  match i with
  | .mhenc t => Sys2Proof.Machine.execMhenc t s
  | .mhdec t => Sys2Proof.Machine.execMhdec t s
  | .crc16 b => Sys2Proof.Machine.execCrc16 b s
  | .aesenc k p => Sys2Proof.Machine.execAesenc k p s
  | .gen => Sys2Proof.Machine.execGen s
  | .insert => Sys2Proof.Machine.execInsert s
  | .button => Sys2Proof.Machine.execButton s
  | .create => Sys2Proof.Machine.execCreate s
  | .load t => Sys2Proof.Machine.execLoad t s
  | .save => Sys2Proof.Machine.execSave s

end Sys2Proof.Machine
end

