-- ==== Sys2Proof/Machine/Transaction.lean ====
section
/-! DEFINITION. What the machine does with one move of the host (20_memory.md R53: "One command is one transaction";
60_exceptions.md R206). -/

namespace Sys2Proof.Machine

/-- R51, R53: the host writes the frame to IBUF and its length to ILEN, and the block runs it: R80 decodes it, a frame
that selects no command is rejected, and a command is executed. Both begin with the halt check (R191, R192). -/
def runFrame (frame : List Byte) (s : State) : Host.Outcome State Fault Refusal :=
  match decode frame with
  | .error _ => rejectFrame (writeFrame frame s)
  | .ok i => exec i (writeFrame frame s)

/-- R206: the three moves the host has. Reading OBUF has no side effect (R56). -/
def runMove (m : HostMove) (s : State) : Host.Outcome State Fault Refusal :=
  match m with
  | .reset => .next (resetBlock s)
  | .readResponse => .next s
  | .command frame => runFrame frame s

end Sys2Proof.Machine
end

