-- ==== Sys2Proof/Machine/Step.lean ====
section
/-! DEFINITION. One step of the machine: the host's next move and the block's whole answer to it. How a program comes to
run from reset, and what `withFetchWord` stands for, is notes/assumptions/4.md. -/

namespace Sys2Proof.Machine

/-- One transaction. With no move left the block waits for the next command (60_exceptions.md R187) and nothing
changes. -/
def step (s : State) : Host.Outcome State Fault Refusal :=
  match s.host with
  | [] => .next s
  | m :: rest => runMove m { s with host := rest }

/-- The state whose very next step is the host issuing the table's word as a command frame. -/
def State.withFetchWord (s : State) (nbits w : Nat) : State :=
  { s with host := .command (tableFrame nbits w) :: s.host }

end Sys2Proof.Machine
end

