-- ==== Sys2Proof/Safety.lean ====
section
/-! DEFINITION. The terms claims are stated in: what a good final state is (60_exceptions.md R190, R208), the form of a
response and the invariant of every step (30_encoding.md R76 to R78), and the spec's own tables and arithmetic written
apart from the machine's definitions (40_modhex.md R100, 41_crc16.md R111), so that a claim can compare the two. -/

namespace Sys2Proof.Machine

/-- R190, R208: a run ended well when SR.HALT = 0; HALT = 1 is "gone wrong". -/
abbrev State.Good (s : State) : Prop := s.halt = false

/-- R76: the bytes of a response, STATUS, SR, RLEN low byte first, RESULT. -/
def answer (status : Nat) (sr : Byte) (result : List Byte) : List Byte :=
  [BitVec.ofNat 8 status, sr, BitVec.ofNat 8 (result.length % 256), BitVec.ofNat 8 (result.length / 256)] ++ result

/-- R76 to R78, R52: OBUF holds no response yet, or a response whose STATUS is 0 to 5, whose SR byte is SR as it
stands, whose RESULT fits RLEN, and whose RESULT is empty unless STATUS is OK or `FormatError`. -/
def State.ResponseForm (s : State) : Prop :=
  s.obuf = [] ∨ ∃ status result, status ≤ 5 ∧ result.length ≤ 65535 ∧ s.obuf = answer status s.sr result ∧
    (result ≠ [] → status = 0 ∨ status = 4)

/-- R190: a block that is halted has answered with a fatal error, `InvalidState` or `Internal`. -/
def State.HaltedByFatal (s : State) : Prop :=
  s.halt = true → s.obuf = answer 3 s.sr [] ∨ s.obuf = answer 5 s.sr []

/-- What every step keeps. -/
structure State.Inv (s : State) : Prop where
  response : s.ResponseForm
  halted : s.HaltedByFatal

/-- R100, the table: a code MHENC accepts and the code of its modhex letter. -/
def hexToModhex : List (Byte × Byte) :=
  [(0x30, 0x63), (0x31, 0x62), (0x32, 0x64), (0x33, 0x65), (0x34, 0x66), (0x35, 0x67), (0x36, 0x68), (0x37, 0x69),
   (0x38, 0x6A), (0x39, 0x6B), (0x61, 0x6C), (0x62, 0x6E), (0x63, 0x72), (0x64, 0x74), (0x65, 0x75), (0x66, 0x76),
   (0x41, 0x6C), (0x42, 0x6E), (0x43, 0x72), (0x44, 0x74), (0x45, 0x75), (0x46, 0x76)]

/-- R100, R103, the table read the other way: a modhex letter's code and the code of its lowercase hex digit. -/
def modhexToHex : List (Byte × Byte) :=
  [(0x63, 0x30), (0x62, 0x31), (0x64, 0x32), (0x65, 0x33), (0x66, 0x34), (0x67, 0x35), (0x68, 0x36), (0x69, 0x37),
   (0x6A, 0x38), (0x6B, 0x39), (0x6C, 0x61), (0x6E, 0x62), (0x72, 0x63), (0x74, 0x64), (0x75, 0x65), (0x76, 0x66)]

/-- R101, R103: a text maps to another character for character under a table. -/
abbrev MapsBy (table : List (Byte × Byte)) (t out : List Byte) : Prop :=
  List.Forall₂ (fun ch o => (ch, o) ∈ table) t out

/-- R101, R103: a character of the text is outside the table. -/
abbrev HasCharOutside (table : List (Byte × Byte)) (t : List Byte) : Prop :=
  ∃ ch ∈ t, ∀ o, (ch, o) ∉ table

/-- R104 `lower`: folds `A-F` to `a-f`. -/
def lowerChar (ch : Byte) : Byte := if (0x41 : Byte) ≤ ch ∧ ch ≤ (0x46 : Byte) then ch + 0x20 else ch

/-- R111, one shift round on the accumulator as an unsigned number. -/
def checksumRound (acc : Nat) : Nat := if acc % 2 = 1 then (acc / 2) ^^^ 0x8408 else acc / 2

/-- R111, the whole algorithm on unsigned numbers. -/
def checksum (b : List Byte) : Nat :=
  b.foldl (fun acc x => checksumRound^[8] (acc ^^^ x.toNat)) 0x5AF0

/-- R169, R173: a text of decimal digits. -/
abbrev IsDigits (v : List Byte) : Prop := ∀ ch ∈ v, 0x30 ≤ ch.toNat ∧ ch.toNat ≤ 0x39

/-- R173: the value of a decimal numeral, most significant digit first. -/
def numeral (v : List Byte) : Nat := v.foldl (fun n ch => 10 * n + (ch.toNat - 0x30)) 0

/-- R175 `dec`: the shortest decimal numeral of v, no leading zero, `0` for zero. -/
def IsShortestNumeral (digits : List Byte) (v : Nat) : Prop :=
  IsDigits digits ∧ numeral digits = v ∧ 1 ≤ digits.length ∧ digits.length ≤ 5 ∧
    (digits.head? = some 0x30 → digits = [0x30])

/-- R168: a text of whitespace, SP and HT only. -/
abbrev IsBlanks (v : List Byte) : Prop := ∀ ch ∈ v, ch = 0x20 ∨ ch = 0x09

/-- R166: the codes of `Yubisim Token 0.1`. -/
def headerCodes : List Byte :=
  [0x59, 0x75, 0x62, 0x69, 0x73, 0x69, 0x6D, 0x20, 0x54, 0x6F, 0x6B, 0x65, 0x6E, 0x20, 0x30, 0x2E, 0x31]

/-- R168: the codes of `Public ID: `. -/
def pubidCodes : List Byte := [0x50, 0x75, 0x62, 0x6C, 0x69, 0x63, 0x20, 0x49, 0x44, 0x3A, 0x20]

/-- R168: the codes of `Secret AES Key: `. -/
def keyCodes : List Byte :=
  [0x53, 0x65, 0x63, 0x72, 0x65, 0x74, 0x20, 0x41, 0x45, 0x53, 0x20, 0x4B, 0x65, 0x79, 0x3A, 0x20]

/-- R168: the codes of `Secret ID: `. -/
def secidCodes : List Byte := [0x53, 0x65, 0x63, 0x72, 0x65, 0x74, 0x20, 0x49, 0x44, 0x3A, 0x20]

/-- R168: the codes of `Counter: `. -/
def counterCodes : List Byte := [0x43, 0x6F, 0x75, 0x6E, 0x74, 0x65, 0x72, 0x3A, 0x20]

/-- R165 to R168, the record grammar: the fixed lines, blanks around each value, and the last LF or none. -/
def recordText (pub key sec ctr : List Byte) (a b : Fin 4 → List Byte) (last : List Byte) : List Byte :=
  headerCodes ++ [0x0A] ++ (pubidCodes ++ a 0 ++ pub ++ b 0 ++ [0x0A]) ++ (keyCodes ++ a 1 ++ key ++ b 1 ++ [0x0A])
    ++ (secidCodes ++ a 2 ++ sec ++ b 2 ++ [0x0A]) ++ (counterCodes ++ a 3 ++ ctr ++ b 3 ++ last)

/-- No whitespace around the values, as `Format` writes the record (R175). -/
def noBlanks : Fin 4 → List Byte := fun _ => []

/-- R140: the plaintext buffer, byte by byte as the table lays it out. -/
def plainBuffer (k : Token) : List Byte :=
  k.id.secid.toList ++
    [BitVec.ofNat 8 (k.ctr.toNat % 256), BitVec.ofNat 8 (k.ctr.toNat / 256),
     BitVec.ofNat 8 (k.tmr.toNat % 256), BitVec.ofNat 8 (k.tmr.toNat / 256 % 256), BitVec.ofNat 8 (k.tmr.toNat / 65536),
     k.sctr, BitVec.ofNat 8 (k.rnd.toNat % 256), BitVec.ofNat 8 (k.rnd.toNat / 256)]

/-- R141: the 16-byte payload, the buffer and its checksum, low byte first. -/
def payload (k : Token) : List Byte :=
  plainBuffer k ++
    [BitVec.ofNat 8 (checksum (plainBuffer k) % 256), BitVec.ofNat 8 (checksum (plainBuffer k) / 256)]

/-- R71: the length field of an operand, low byte first. -/
def lengthField (d : List Byte) : List Byte := [BitVec.ofNat 8 (d.length % 256), BitVec.ofNat 8 (d.length / 256)]

/-- R143, R170: a text is the modhex rendering of bytes, two letters per byte, the high nibble first. -/
def modhexText (b : List Byte) : List Byte :=
  b.flatMap fun x => [modhexLetters.getD (x.toNat / 16) 0, modhexLetters.getD (x.toNat % 16) 0]

/-- R10: a text is the lowercase hex rendering of bytes, two digits per byte, the high nibble first. -/
def hexText (b : List Byte) : List Byte :=
  b.flatMap fun x => [hexDigits.getD (x.toNat / 16) 0, hexDigits.getD (x.toNat % 16) 0]

/-- The status codes R195 allows each command besides OK. -/
def allowedErrors : Instr → List Nat
  | .mhenc _ => [1]
  | .mhdec _ => [1]
  | .crc16 _ => [2]
  | .aesenc _ _ => [3, 5]
  | .gen => [3]
  | .insert => [3]
  | .button => [3]
  | .create => []
  | .load _ => [4]
  | .save => [3]

/-- R78: the length of the result of each command when STATUS is OK. -/
def resultLength : Instr → Nat → Prop
  | .mhenc t, n => n = t.length
  | .mhdec t, n => n = t.length
  | .crc16 _, n => n = 2
  | .aesenc _ _, n => n = 16
  | .gen, n => n = 44
  | .insert, n => n = 0
  | .button, n => n = 44
  | .create, n => n = 0
  | .load _, n => n = 0
  | .save, n => 126 ≤ n ∧ n ≤ 130

/-- The record V of R179 with another counter value, and the same with another public id, key or secret id. -/
def recordV (pub key sec ctr : List Byte) : List Byte := recordText pub key sec ctr noBlanks noBlanks [0x0A]

/-- n copies of a character. -/
abbrev copies (n : Nat) (c : Char) : List Byte := ascii (List.replicate n c)

/-- A text that Parse rejects with the one error of R177. -/
def Rejected (t : List Byte) : Prop := parse t = .error (.formatError t)

end Sys2Proof.Machine
end

