-- ==== Sys2Proof/Certificates/Slice0/Obligations.lean ====
section
/-! DEFINITION. The statements about the model, one per rule or group of rules of spec/ that says what the machine or a
command does. A response is `answer STATUS SR RESULT` (30_encoding.md R76); a command that leaves a state
`{ s with obuf := … }` has changed nothing but OBUF, which is its frame. -/

open Sys2Proof Sys2Proof.Machine

/-! Reset, the status register, one transaction -/

/-- R38: the state after reset, as far as the spec gives it: no token, SR = 0x00, OLEN = 0. -/
def Obligations.ResetHoldsNoToken : Prop :=
  State.reset.held = .noToken ∧ State.reset.valid = false ∧ State.reset.halt = false ∧ State.reset.sr = 0 ∧
    State.reset.obuf.length = 0

/-- R29: VALID is bit 0 of SR, HALT is bit 1, bits 7:2 read as 0. -/
def Obligations.StatusRegisterBits : Prop :=
  ∀ s : State, s.sr.getLsbD 0 = s.valid ∧ s.sr.getLsbD 1 = s.halt ∧ (∀ j, 2 ≤ j → s.sr.getLsbD j = false) ∧
    (s.valid = true ↔ ∃ k, s.held = .token k)

/-- R215, R216: Reset empties the block, from any state; the host's further moves and the ports, which are outside the
block, go on. IBUF after reset is the model's choice (notes/assumptions/2.md) and is left out. -/
def Obligations.ResetClearsTheBlock : Prop :=
  ∀ (s : State) (rest : List HostMove), s.host = .reset :: rest →
    ∃ t, step s = .next t ∧ t.held = .noToken ∧ t.halt = false ∧ t.sr = 0 ∧ t.obuf = [] ∧ t.host = rest ∧
      t.ports = s.ports

/-- R56, R187: reading the response changes nothing, and with no move of the host left the block waits. -/
def Obligations.ReadingAndWaitingChangeNothing : Prop :=
  (∀ (s : State) (rest : List HostMove), s.host = .readResponse :: rest → step s = .next { s with host := rest }) ∧
  (∀ s : State, s.host = [] → step s = .next s)

/-- R51, R53: a step with a command frame that decodes writes the frame to IBUF and executes the command. -/
def Obligations.StepRunsDecodedCommand : Prop :=
  ∀ (s : State) (f : List Byte) (rest : List HostMove) (i : Instr), s.host = .command f :: rest → decode f = .ok i →
    step s = exec i { s with host := rest, ibuf := f }

/-- R76, R77, R52: every command frame, accepted or not, ends in one response frame of 4 + RLEN bytes whose SR byte is SR
after the command and whose STATUS is 0 to 5. -/
def Obligations.EveryCommandAnswers : Prop :=
  ∀ (s : State) (f : List Byte) (rest : List HostMove), s.host = .command f :: rest →
    ∃ t n r, step s = .next t ∧ n ≤ 5 ∧ r.length ≤ 65535 ∧ t.obuf = answer n t.sr r ∧ t.obuf.length = 4 + r.length

/-- Reset meets the invariant. -/
def Obligations.ResetMeetsInvariant : Prop := State.reset.Inv

/-- R52, R76, R77, R189, R190: from any state that meets the invariant every step leads to one: OBUF is empty or a
well-formed response with SR as it stands, and a halted block has answered with a fatal error. -/
def Obligations.StepKeepsInvariant : Prop :=
  ∀ s t : State, s.Inv → step s = .next t → t.Inv

/-- R29, R190: only Reset clears VALID or HALT. -/
def Obligations.ValidAndHaltAreSticky : Prop :=
  ∀ s t : State, step s = .next t → (∀ rest, s.host ≠ .reset :: rest) →
    (s.valid = true → t.valid = true) ∧ (s.halt = true → t.halt = true)

/-! Encoding -/

/-- R71, R80: decoding and encoding agree, both ways: every well-formed command is read back from its frame, and a
frame that decodes is the frame of the command read, whose operands fit their length fields. -/
def Obligations.DecodeEncodeAgree : Prop :=
  (∀ i : Instr, i.WellFormed → decode (encode i) = .ok i) ∧
  (∀ (f : List Byte) (i : Instr), decode f = .ok i → i.WellFormed ∧ encode i = f)

/-- R71: the bytes of a frame of each format, and the opcode byte of each command (R74). -/
def Obligations.FrameLayout : Prop :=
  ∀ f d e : List Byte,
    (decode f = .ok (.mhenc d) ↔ d.length ≤ 65535 ∧ f = [0x01] ++ lengthField d ++ d) ∧
    (decode f = .ok (.mhdec d) ↔ d.length ≤ 65535 ∧ f = [0x02] ++ lengthField d ++ d) ∧
    (decode f = .ok (.crc16 d) ↔ d.length ≤ 65535 ∧ f = [0x03] ++ lengthField d ++ d) ∧
    (decode f = .ok (.load d) ↔ d.length ≤ 65535 ∧ f = [0x09] ++ lengthField d ++ d) ∧
    (decode f = .ok (.aesenc d e) ↔ d.length ≤ 65535 ∧ e.length ≤ 65535 ∧
      f = [0x04] ++ lengthField d ++ d ++ lengthField e ++ e) ∧
    (decode f = .ok .gen ↔ f = [0x05]) ∧ (decode f = .ok .insert ↔ f = [0x06]) ∧
    (decode f = .ok .button ↔ f = [0x07]) ∧ (decode f = .ok .create ↔ f = [0x08]) ∧ (decode f = .ok .save ↔ f = [0x0A])

/-- R80, R84: frames written out in the spec decode to the commands they stand for. -/
def Obligations.DecodeOfWrittenFrames : Prop :=
  decode [0x01, 0x04, 0x00, 0x30, 0x30, 0x66, 0x66] = .ok (.mhenc [0x30, 0x30, 0x66, 0x66]) ∧
  decode [0x01, 0x00, 0x00] = .ok (.mhenc []) ∧
  decode [0x02, 0x04, 0x00, 0x76, 0x76, 0x63, 0x63] = .ok (.mhdec [0x76, 0x76, 0x63, 0x63]) ∧
  decode [0x03, 0x0E, 0x00, 0, 0, 0, 0, 0, 0, 1, 0, 0, 0, 0, 0, 0, 0] =
    .ok (.crc16 [0, 0, 0, 0, 0, 0, 1, 0, 0, 0, 0, 0, 0, 0]) ∧
  decode [0x06] = .ok .insert ∧ decode [0x07] = .ok .button ∧
  decode [0x0B] = .error (.illegalOpcode 0x0B) ∧ decode [0x17] = .error (.illegalOpcode 0x17) ∧
  decode [0x01, 0x02, 0x00, 0x30] = .error .operandCut ∧ decode [0x06, 0x00] = .error .bytesRemain ∧
  decode [] = .error .emptyFrame ∧ decode [0x01, 0x02] = .error .lengthCut

/-- R79: an opcode byte with any of bits 7 to 4 set, or with `op` 0x0 or 0xB to 0xF, is `InvalidInput`, whatever
follows it; no register is written and no port is read. There are 246 of them. -/
def Obligations.IllegalOpcodesAreInvalidInput : Prop :=
  (∀ (s : State) (b : Byte) (more : List Byte) (rest : List HostMove), s.halt = false →
    (b.toNat / 16 ≠ 0 ∨ b.toNat % 16 = 0 ∨ 0xB ≤ b.toNat % 16) → s.host = .command (b :: more) :: rest →
    step s = .next { s with host := rest, ibuf := b :: more, obuf := answer 1 s.sr [] }) ∧
  ((List.range 256).filter fun n => n / 16 ≠ 0 ∨ n % 16 = 0 ∨ 0xB ≤ n % 16).length = 246

/-- R80: a frame that is not the frame of a command is `InvalidInput`: no register written, no port read. The four ways
to be malformed are among such frames. -/
def Obligations.MalformedFramesAreInvalidInput : Prop :=
  (∀ (s : State) (f : List Byte) (rest : List HostMove), s.halt = false → s.host = .command f :: rest →
    (∀ i : Instr, i.WellFormed → encode i ≠ f) →
    step s = .next { s with host := rest, ibuf := f, obuf := answer 1 s.sr [] }) ∧
  (∀ i : Instr, encode i ≠ []) ∧
  (∀ (i j : Instr) (more : List Byte), more ≠ [] → i.WellFormed → j.WellFormed → encode j ≠ encode i ++ more) ∧
  (∀ (i j : Instr) (n : Nat), n < (encode i).length → i.WellFormed → j.WellFormed → encode j ≠ (encode i).take n)

/-! Errors and halting -/

/-- R191: the halt check comes first: a halted block answers every command and every frame with `03 SR 00 00`, changes
nothing and reads no port. -/
def Obligations.HaltCheckComesFirst : Prop :=
  ∀ s : State, s.halt = true →
    (∀ i : Instr, exec i s = .next { s with obuf := answer 3 s.sr [] }) ∧
    (∀ (f : List Byte) (rest : List HostMove), s.host = .command f :: rest →
      step s = .next { s with host := rest, ibuf := f, obuf := answer 3 s.sr [] })

/-- R188: a command or a frame that ends in `InvalidInput`, `InvalidLength` or `FormatError` has changed no register and
read no port, only OBUF (and, by the host's own writing, IBUF); the next command runs as if it had not been issued. -/
def Obligations.CallerErrorsDoNotMutate : Prop :=
  (∀ (i : Instr) (s t : State) (n : Nat) (r : List Byte), exec i s = .next t → t.obuf = answer n t.sr r →
    (n = 1 ∨ n = 2 ∨ n = 4) → t = { s with obuf := t.obuf } ∧ ∀ j : Instr, exec j t = exec j s) ∧
  (∀ (s t : State) (f : List Byte) (rest : List HostMove) (n : Nat) (r : List Byte), s.host = .command f :: rest →
    step s = .next t → t.obuf = answer n t.sr r → (n = 1 ∨ n = 2 ∨ n = 4) →
    t = { s with host := rest, ibuf := f, obuf := t.obuf })

/-- R190: a fatal error sets HALT and keeps VALID. -/
def Obligations.FatalErrorsHalt : Prop :=
  ∀ (i : Instr) (s t : State) (n : Nat) (r : List Byte), exec i s = .next t → t.obuf = answer n t.sr r →
    (n = 3 ∨ n = 5) → t.halt = true ∧ t.valid = s.valid

/-- R193: GEN, INSERT, BUTTON and SAVE with no token held are `InvalidState`, fatal: HALT is set and the response
written, no register is read or written and no port is read. -/
def Obligations.TokenCommandsNeedAToken : Prop :=
  ∀ (i : Instr) (s : State), (i = .gen ∨ i = .insert ∨ i = .button ∨ i = .save) → s.halt = false → s.valid = false →
    exec i s = .next { s with halt := true, obuf := [3, 2, 0, 0] }

/-- R195: the errors each command can end with when the block is not halted, each raised before any register is written
or port read, HALT set by the fatal ones and by no other. -/
def Obligations.ErrorsByCommand : Prop :=
  ∀ (i : Instr) (s t : State), s.halt = false → exec i s = .next t →
    ∃ n r, t.obuf = answer n t.sr r ∧ (n = 0 ∨ n ∈ allowedErrors i) ∧
      (n ≠ 0 → t.held = s.held ∧ t.ports = s.ports) ∧ (t.halt = true ↔ n = 3 ∨ n = 5)

/-- R189: the information an error carries: the whole record operand with `FormatError`, nothing with any other. -/
def Obligations.ErrorInformation : Prop :=
  ∀ (i : Instr) (s t : State) (n : Nat) (r : List Byte), exec i s = .next t → t.obuf = answer n t.sr r → n ≤ 5 → n ≠ 0 →
    (n ≠ 4 → r = []) ∧ (n = 4 → i = .load r)

/-- R78, the RLEN column: how long the result of each command is when STATUS is OK. -/
def Obligations.ResultLengths : Prop :=
  ∀ (i : Instr) (s t : State) (r : List Byte), exec i s = .next t → t.obuf = answer 0 t.sr r → resultLength i r.length

/-! The Modhex Codec -/

/-- R101: MHENC on a text of hex characters of either case answers the modhex text, on any other `InvalidInput`; nothing
but OBUF changes. -/
def Obligations.MhencSubstitutes : Prop :=
  ∀ (s : State) (t : List Byte), s.halt = false →
    (∀ out, MapsBy hexToModhex t out → exec (.mhenc t) s = .next { s with obuf := answer 0 s.sr out }) ∧
    (HasCharOutside hexToModhex t → exec (.mhenc t) s = .next { s with obuf := answer 1 s.sr [] })

/-- R103: MHDEC on a text of modhex characters answers the lowercase hex text, on any other `InvalidInput`; nothing but
OBUF changes. -/
def Obligations.MhdecSubstitutes : Prop :=
  ∀ (s : State) (t : List Byte), s.halt = false →
    (∀ out, MapsBy modhexToHex t out → exec (.mhdec t) s = .next { s with obuf := answer 0 s.sr out }) ∧
    (HasCharOutside modhexToHex t → exec (.mhdec t) s = .next { s with obuf := answer 1 s.sr [] })

/-- R104: the round trips of the codec, and that neither direction fails on the output of the other. -/
def Obligations.ModhexRoundTrips : Prop :=
  (∀ t m : List Byte, mhEnc t = .ok m → mhDec m = .ok (t.map lowerChar)) ∧
  (∀ m h : List Byte, mhDec m = .ok h → mhEnc h = .ok m)

/-- R102: MhEnc preserves length, folds case, is injective on lowercase texts, and renders a byte sequence two letters
per byte, high nibble first. -/
def Obligations.MhEncProperties : Prop :=
  (∀ t m : List Byte, mhEnc t = .ok m → m.length = t.length) ∧
  (∀ t : List Byte, mhEnc (t.map lowerChar) = mhEnc t) ∧
  (∀ t u m : List Byte, mhEnc t = .ok m → mhEnc u = .ok m → t.map lowerChar = u.map lowerChar) ∧
  (∀ b : List Byte, mhEnc (hex b) = .ok (modhexText b))

/-! The CRC Engine -/

/-- R111: CRC16 of 14 bytes answers the checksum, low byte first; of any other length `InvalidLength`; nothing but OBUF
changes. -/
def Obligations.Crc16Checksum : Prop :=
  ∀ (s : State) (b : List Byte), s.halt = false →
    (b.length = 14 → checksum b < 65536 ∧
      exec (.crc16 b) s = .next
        { s with obuf := answer 0 s.sr [BitVec.ofNat 8 (checksum b % 256), BitVec.ofNat 8 (checksum b / 256)] }) ∧
    (b.length ≠ 14 → exec (.crc16 b) s = .next { s with obuf := answer 2 s.sr [] })

/-- R112: Crc16 is affine over exclusive-or, and flipping any single bit of the buffer changes the checksum. -/
def Obligations.Crc16Affine : Prop :=
  (∀ a b c : List Byte, a.length = 14 → b.length = 14 → c.length = 14 →
    ∃ x y z w, crc16 a = .ok x ∧ crc16 b = .ok y ∧ crc16 c = .ok z ∧
      crc16 (List.zipWith (· ^^^ ·) (List.zipWith (· ^^^ ·) a b) c) = .ok w ∧ x ^^^ y ^^^ z = w) ∧
  (∀ (a : List Byte) (i j : Nat), a.length = 14 → i < 14 → j < 8 →
    crc16 (a.set i (a.getD i 0 ^^^ (1#8 <<< j))) ≠ crc16 a)

/-- R113 and vectors T20 to T31 of 95_test_vectors.md, all of them: the accumulator after each round of byte 0 and of
byte 6 and after each byte of R113's buffer, the checksum of each 14-byte buffer, and the lengths that are refused. -/
def Obligations.Crc16PrintedValues : Prop :=
  let buffer : List Byte := [0, 0, 0, 0, 0, 0, 1, 0, 0, 0, 0, 0, 0, 0]
  (List.range 8).map (fun n => crcRounds (n + 1) (0x5AF0 ^^^ 0x00)) =
    [0x2D78, 0x16BC, 0x0B5E, 0x05AF, 0x86DF, 0xC767, 0xE7BB, 0xF7D5] ∧
  (List.range 14).map (fun n => (buffer.take (n + 1)).foldl crcByte crcInit) =
    [0xF7D5, 0x81D7, 0xA2B3, 0x87B2, 0x961E, 0xF969, 0xEFB7, 0xC1DB, 0x689F, 0x6C16, 0x75DB, 0x682B, 0x9FB9, 0x28D5] ∧
  ((0xF969 : Word16) ^^^ 0x01 = 0xF968 ∧ (List.range 8).map (fun n => crcRounds (n + 1) 0xF968) =
    [0x7CB4, 0x3E5A, 0x1F2D, 0x8B9E, 0x45CF, 0xA6EF, 0xD77F, 0xEFB7]) ∧
  crc16 (List.replicate 14 0) = .ok 0xA96A ∧ crc16 buffer = .ok 0x28D5 ∧ crc16 (List.replicate 14 0xFF) = .ok 0x7B3C ∧
  crc16 [0x00, 0x01, 0x02, 0x03, 0x04, 0x05, 0x06, 0x07, 0x08, 0x09, 0x0A, 0x0B, 0x0C, 0x0D] = .ok 0xBF93 ∧
  crc16 [0x30, 0x31, 0x32, 0x33, 0x34, 0x35, 0x36, 0x37, 0x38, 0x39, 0x61, 0x62, 0x63, 0x64] = .ok 0x085D ∧
  crc16 [0xF0, 0x5A, 0, 0, 0, 0, 0, 0, 0, 0, 0, 0, 0, 0] = .ok 0x0000 ∧
  crc16 [0x80, 0, 0, 0, 0, 0, 0, 0, 0, 0, 0, 0, 0, 0] = .ok 0x2FB4 ∧
  crc16 [0, 0, 0, 0, 0, 0, 0, 0, 0, 0, 0, 0, 0, 1] = .ok 0xB8E3 ∧
  crc16 [0x0A, 0x0B, 0x0C, 0x0D, 0x0E, 0x0F, 0x01, 0x00, 0x89, 0x67, 0x45, 0x01, 0xEF, 0xBE] = .ok 0x13FC ∧
  crc16 (List.replicate 13 0) = .error .invalidLength ∧ crc16 (List.replicate 15 0) = .error .invalidLength ∧
  crc16 [] = .error .invalidLength

/-! The cipher core -/

/-- R121: AESENC of a 16-byte key and a 16-byte block answers the cipher's 16-byte block; a key of another length is
`InvalidState`, else a block of another length `Internal`, both fatal. No token register is read or written. -/
def Obligations.AesencEncryptsOrHalts : Prop :=
  ∀ (s : State) (k p : List Byte), s.halt = false →
    (k.length = 16 → p.length = 16 → ∃ c, aes128Enc k p = .ok c ∧ c.length = 16 ∧
      exec (.aesenc k p) s = .next { s with obuf := answer 0 s.sr c }) ∧
    (k.length ≠ 16 → exec (.aesenc k p) s = .next { s with halt := true, obuf := answer 3 (s.sr ||| 2) [] }) ∧
    (k.length = 16 → p.length ≠ 16 →
      exec (.aesenc k p) s = .next { s with halt := true, obuf := answer 5 (s.sr ||| 2) [] })

/-- R131: the two published vectors of the standard. -/
def Obligations.AesPublishedVectors : Prop :=
  aes128Enc [0x00, 0x01, 0x02, 0x03, 0x04, 0x05, 0x06, 0x07, 0x08, 0x09, 0x0a, 0x0b, 0x0c, 0x0d, 0x0e, 0x0f]
      [0x00, 0x11, 0x22, 0x33, 0x44, 0x55, 0x66, 0x77, 0x88, 0x99, 0xaa, 0xbb, 0xcc, 0xdd, 0xee, 0xff] =
    .ok [0x69, 0xc4, 0xe0, 0xd8, 0x6a, 0x7b, 0x04, 0x30, 0xd8, 0xcd, 0xb7, 0x80, 0x70, 0xb4, 0xc5, 0x5a] ∧
  aes128Enc [0x2b, 0x7e, 0x15, 0x16, 0x28, 0xae, 0xd2, 0xa6, 0xab, 0xf7, 0x15, 0x88, 0x09, 0xcf, 0x4f, 0x3c]
      [0x32, 0x43, 0xf6, 0xa8, 0x88, 0x5a, 0x30, 0x8d, 0x31, 0x31, 0x98, 0xa2, 0xe0, 0x37, 0x07, 0x34] =
    .ok [0x39, 0x25, 0x84, 0x1d, 0x02, 0xdc, 0x09, 0xfb, 0xdc, 0x11, 0x85, 0x97, 0x19, 0x6a, 0x0b, 0x32]

/-- R121: how Aes128Enc is built from the steps: ten rounds, the last without MixColumns. -/
def Obligations.AesRoundStructure : Prop :=
  ∀ k p : List Byte, k.length = 16 → p.length = 16 →
    ∃ st : Nat → List Byte,
      st 0 = addRoundKey p (roundKey (keyExpansion k) 0) ∧
      (∀ r, 1 ≤ r → r ≤ 9 →
        st r = addRoundKey (mixColumns (shiftRows (subBytes (st (r - 1))))) (roundKey (keyExpansion k) r)) ∧
      (∀ r, r ≤ 9 → (st r).length = 16) ∧
      aes128Enc k p = .ok (addRoundKey (shiftRows (subBytes (st 9))) (roundKey (keyExpansion k) 10))

/-- R126 to R129: the four steps of a round by index, on a state of 16 bytes. -/
def Obligations.AesStepsByIndex : Prop :=
  ∀ s rk : List Byte, s.length = 16 → rk.length = 16 →
    (∀ i, i < 16 → (subBytes s).getD i 0 = sbox (s.getD i 0)) ∧
    (∀ r c, r < 4 → c < 4 → (shiftRows s).getD (r + 4 * c) 0 = s.getD (r + 4 * ((c + r) % 4)) 0) ∧
    (∀ c, c < 4 →
      (mixColumns s).getD (4 * c) 0 =
        gmul (s.getD (4 * c) 0) 2 ^^^ gmul (s.getD (4 * c + 1) 0) 3 ^^^ s.getD (4 * c + 2) 0 ^^^ s.getD (4 * c + 3) 0 ∧
      (mixColumns s).getD (4 * c + 1) 0 =
        s.getD (4 * c) 0 ^^^ gmul (s.getD (4 * c + 1) 0) 2 ^^^ gmul (s.getD (4 * c + 2) 0) 3 ^^^ s.getD (4 * c + 3) 0 ∧
      (mixColumns s).getD (4 * c + 2) 0 =
        s.getD (4 * c) 0 ^^^ s.getD (4 * c + 1) 0 ^^^ gmul (s.getD (4 * c + 2) 0) 2 ^^^ gmul (s.getD (4 * c + 3) 0) 3 ∧
      (mixColumns s).getD (4 * c + 3) 0 =
        gmul (s.getD (4 * c) 0) 3 ^^^ s.getD (4 * c + 1) 0 ^^^ s.getD (4 * c + 2) 0 ^^^ gmul (s.getD (4 * c + 3) 0) 2) ∧
    (∀ i, i < 16 → (addRoundKey s rk).getD i 0 = s.getD i 0 ^^^ rk.getD i 0) ∧
    (subBytes s).length = 16 ∧ (shiftRows s).length = 16 ∧ (mixColumns s).length = 16 ∧ (addRoundKey s rk).length = 16

/-- R124, R125: the multipliers of encryption, the spec's products, and the S-box rebuilt from its definition. -/
def Obligations.SboxFromItsDefinition : Prop :=
  (∀ a : Byte, gmul a 1 = a ∧ gmul a 2 = xtime a ∧ gmul a 3 = xtime a ^^^ a) ∧
  gmul 0x57 0x13 = 0xFE ∧ gmul 0x57 0x83 = 0xC1 ∧
  (∀ v : Byte, ∃ b : Byte, (v = 0 → b = 0) ∧ (v ≠ 0 → gmul v b = 1) ∧
    sbox v = b ^^^ b.rotateLeft 1 ^^^ b.rotateLeft 2 ^^^ b.rotateLeft 3 ^^^ b.rotateLeft 4 ^^^ 0x63)

/-- R130, R129: the key schedule: 44 words, the first four the key, the others by the recurrence with RotWord, SubWord
and the round constants; round key 0 is the key. -/
def Obligations.KeyScheduleRecurrence : Prop :=
  (∀ k : List Byte, k.length = 16 →
    ∃ w : Nat → KeyWord, keyExpansion k = (List.range 44).map w ∧
      (∀ i, i < 4 → w i = ⟨k.getD (4 * i) 0, k.getD (4 * i + 1) 0, k.getD (4 * i + 2) 0, k.getD (4 * i + 3) 0⟩) ∧
      (∀ i, 4 ≤ i → i < 44 → i % 4 ≠ 0 → w i = xorWord (w (i - 4)) (w (i - 1))) ∧
      (∀ i, 4 ≤ i → i < 44 → i % 4 = 0 → w i = xorWord (w (i - 4))
        ⟨sbox (w (i - 1)).b1 ^^^ rcon (i / 4), sbox (w (i - 1)).b2, sbox (w (i - 1)).b3, sbox (w (i - 1)).b0⟩) ∧
      (∀ r, r ≤ 10 → roundKey (keyExpansion k) r =
        wordBytes (w (4 * r)) ++ wordBytes (w (4 * r + 1)) ++ wordBytes (w (4 * r + 2)) ++ wordBytes (w (4 * r + 3))) ∧
      roundKey (keyExpansion k) 0 = k) ∧
  ((List.range 10).map fun j => rcon (j + 1)) = [0x01, 0x02, 0x04, 0x08, 0x10, 0x20, 0x40, 0x80, 0x1b, 0x36]

/-- R122: for a fixed key the cipher is a bijection on 16-byte blocks. -/
def Obligations.AesIsABijection : Prop :=
  ∀ k : List Byte, k.length = 16 →
    (∀ p q : List Byte, p.length = 16 → q.length = 16 → aes128Enc k p = aes128Enc k q → p = q) ∧
    (∀ c : List Byte, c.length = 16 → ∃ p, p.length = 16 ∧ aes128Enc k p = .ok c)

/-! The OTP Cipher Pipeline -/

/-- R140, R141: the plaintext buffer is SECID, then CTR, TMR, SCTR and RND little-endian, 14 bytes, and its checksum is
the one of R111. -/
def Obligations.PlaintextLayout : Prop :=
  ∀ k : Token, plaintext k = plainBuffer k ∧ (plaintext k).length = 14 ∧
    crc16 (plaintext k) = .ok (BitVec.ofNat 16 (checksum (plainBuffer k))) ∧ (payload k).length = 16

/-- R144, R146: the pipeline never fails; its text is the modhex public id, 12 characters, and the modhex of the
encrypted payload, 32 characters, all of the modhex alphabet. -/
def Obligations.OtpText : Prop :=
  ∀ k : Token, ∃ c, aes128Enc k.id.key.toList (payload k) = .ok c ∧ c.length = 16 ∧
    generate k = .ok (modhexText k.id.pubid.toList ++ modhexText c) ∧
    runPipeline k = .ok (modhexText k.id.pubid.toList ++ modhexText c) ∧
    (modhexText k.id.pubid.toList).length = 12 ∧ (modhexText c).length = 32 ∧
    ∀ ch ∈ modhexText k.id.pubid.toList ++ modhexText c, ∃ o, (ch, o) ∈ modhexToHex

/-- R145, R193: GEN with a token held answers the OTP text of the registers as they stand and changes nothing but OBUF;
with no token held it is `InvalidState`, fatal, with no register written. -/
def Obligations.GenAnswersOtp : Prop :=
  ∀ s : State, s.halt = false →
    (∀ k, s.held = .token k →
      ∃ text, generate k = .ok text ∧ text.length = 44 ∧ exec .gen s = .next { s with obuf := answer 0 1 text }) ∧
    (s.held = .noToken → exec .gen s = .next { s with halt := true, obuf := [3, 2, 0, 0] })

/-- R147: the source's known vector: the all-zero identity with CTR = 1 gives the printed OTP text. -/
def Obligations.KnownVector : Prop :=
  ∀ k : Token, k.id.pubid.toList = List.replicate 6 0 → k.id.key.toList = List.replicate 16 0 →
    k.id.secid.toList = List.replicate 6 0 → k.ctr = 1 → k.sctr = 0 → k.tmr = 0 → k.rnd = 0 →
    plaintext k = [0, 0, 0, 0, 0, 0, 1, 0, 0, 0, 0, 0, 0, 0] ∧
    generate k = .ok (ascii ['c', 'c', 'c', 'c', 'c', 'c', 'c', 'c', 'c', 'c', 'c', 'c', 'u', 'c', 'u', 'g', 'v', 'f',
      'k', 'd', 'r', 'v', 'd', 'c', 'e', 'f', 'l', 'i', 'r', 'r', 'g', 'b', 'n', 't', 'u', 'j', 'c', 'v', 'n', 'b',
      'l', 'c', 'h', 'r'])

/-- R148: under one KEY the OTP text determines PUBID and every payload register: registers that differ in any of them
give different texts. -/
def Obligations.OtpTextDeterminesPayload : Prop :=
  ∀ (k l : Token) (text : List Byte), k.id.key = l.id.key → generate k = .ok text → generate l = .ok text → k = l

/-! The State Transition Engine and CREATE -/

/-- R33, R34: how a port read is answered: by the next injected answer, which is then used up, or by a free value of
Config; one read is counted. A `DrawBytes` that finds too few injected bytes takes those first and a free value for each
of the others. That reads past the injected answers take Config's values is the model's choice
(notes/assumptions/3.md). -/
def Obligations.PortReads : Prop :=
  (∀ (v : Word16) (us : List Word16) (bs : List Byte) (ts : List Nat) (n : Nat),
    Ports.drawU16 ⟨v :: us, bs, ts, n⟩ = (v, ⟨us, bs, ts, n + 1⟩)) ∧
  (∀ (bs : List Byte) (ts : List Nat) (n : Nat), Ports.drawU16 ⟨[], bs, ts, n⟩ = (Config.freeU16 n, ⟨[], bs, ts, n + 1⟩)) ∧
  (∀ (c : Nat) (us : List Word16) (bs : List Byte) (ts : List Nat) (n : Nat),
    Ports.clockTicks ⟨us, bs, c :: ts, n⟩ = (c, ⟨us, bs, ts, n + 1⟩)) ∧
  (∀ (us : List Word16) (bs : List Byte) (n : Nat),
    Ports.clockTicks ⟨us, bs, [], n⟩ = (Config.freeTicks n, ⟨us, bs, [], n + 1⟩)) ∧
  (∀ (k : Nat) (v : List Byte) (us : List Word16) (bs : List Byte) (ts : List Nat) (n : Nat), v.length = k →
    (Ports.drawBytes k ⟨us, v ++ bs, ts, n⟩).1.toList = v ∧ (Ports.drawBytes k ⟨us, v ++ bs, ts, n⟩).2 = ⟨us, bs, ts, n + 1⟩) ∧
  (∀ (k : Nat) (v : List Byte) (us : List Word16) (ts : List Nat) (n : Nat), v.length < k →
    (Ports.drawBytes k ⟨us, v, ts, n⟩).1.toList =
      v ++ (List.range (k - v.length)).map (fun j => Config.freeByte n (v.length + j)) ∧
    (Ports.drawBytes k ⟨us, v, ts, n⟩).2 = ⟨us, [], ts, n + 1⟩)

/-- R150: Sanitize draws RND, leaves CTR and SCTR as they are, and takes the low 24 bits of the tick count; the random
port is read once, then the clock port once. -/
def Obligations.SanitizeRefreshes : Prop :=
  ∀ (id : Identity) (ctr : Word16) (sctr : BitVec 8) (p : Ports),
    sanitize id ctr sctr p =
      (⟨id, ctr, sctr, BitVec.ofNat 24 (p.drawU16.2.clockTicks.1 % 2 ^ 24), p.drawU16.1⟩, p.drawU16.2.clockTicks.2)

/-- R151, R193: INSERT with a token held advances CTR by one modulo 65536, clears SCTR and runs Sanitize; the identity
and everything else stay. With no token held it is `InvalidState`, fatal, with no register written and no port read. -/
def Obligations.InsertAdvancesCounter : Prop :=
  ∀ s : State, s.halt = false →
    (∀ k, s.held = .token k →
      exec .insert s = .next { s with
        held := .token ⟨k.id, BitVec.ofNat 16 ((k.ctr.toNat + 1) % 65536), 0,
          BitVec.ofNat 24 (s.ports.drawU16.2.clockTicks.1 % 2 ^ 24), s.ports.drawU16.1⟩,
        ports := s.ports.drawU16.2.clockTicks.2, obuf := answer 0 1 [] }) ∧
    (s.held = .noToken → exec .insert s = .next { s with halt := true, obuf := [3, 2, 0, 0] })

/-- R152, R193: BUTTON with a token held advances SCTR by one modulo 256, runs Sanitize, keeps CTR and the identity, and
answers the OTP text of the new registers. With no token held it is `InvalidState`, fatal, with no register written and
no port read. -/
def Obligations.ButtonAdvancesSession : Prop :=
  ∀ s : State, s.halt = false →
    (∀ k, s.held = .token k →
      ∃ text, text.length = 44 ∧
        generate ⟨k.id, k.ctr, BitVec.ofNat 8 ((k.sctr.toNat + 1) % 256),
          BitVec.ofNat 24 (s.ports.drawU16.2.clockTicks.1 % 2 ^ 24), s.ports.drawU16.1⟩ = .ok text ∧
        exec .button s = .next { s with
          held := .token ⟨k.id, k.ctr, BitVec.ofNat 8 ((k.sctr.toNat + 1) % 256),
            BitVec.ofNat 24 (s.ports.drawU16.2.clockTicks.1 % 2 ^ 24), s.ports.drawU16.1⟩,
          ports := s.ports.drawU16.2.clockTicks.2, obuf := answer 0 1 text }) ∧
    (s.held = .noToken → exec .button s = .next { s with halt := true, obuf := [3, 2, 0, 0] })

/-- R155: CREATE draws PUBID, KEY and SECID in that order, then draws RND and reads the clock, and leaves CTR = 1, SCTR = 0
and VALID = 1, whether or not a token was held. -/
def Obligations.CreateDrawsIdentity : Prop :=
  ∀ (s : State) (pub : Vector Byte 6) (key : Vector Byte 16) (sec : Vector Byte 6) (p1 p2 p3 p4 p5 : Ports)
    (r : Word16) (c : Nat), s.halt = false → s.ports.drawBytes 6 = (pub, p1) → p1.drawBytes 16 = (key, p2) →
    p2.drawBytes 6 = (sec, p3) → p3.drawU16 = (r, p4) → p4.clockTicks = (c, p5) →
    exec .create s = .next { s with
      held := .token ⟨⟨pub, key, sec⟩, 1, 0, BitVec.ofNat 24 (c % 2 ^ 24), r⟩, ports := p5, obuf := answer 0 1 [] }

/-- R33, R34, U4, U5: every draw is possible: for any 28 identity bytes, any random value and any tick count there are
port answers under which CREATE leaves exactly these, and BUTTON and INSERT any random value and tick count. -/
def Obligations.EveryDrawIsPossible : Prop :=
  ∀ (s : State) (id : Identity) (r : Word16) (tmr : Word24), s.halt = false →
    (∃ p t, exec .create { s with ports := p } = .next t ∧ t.held = .token ⟨id, 1, 0, tmr, r⟩) ∧
    (∀ k, s.held = .token k →
      (∃ p t, exec .insert { s with ports := p } = .next t ∧ t.held = .token ⟨k.id, k.ctr + 1, 0, tmr, r⟩) ∧
      (∃ p t, exec .button { s with ports := p } = .next t ∧ t.held = .token ⟨k.id, k.ctr, k.sctr + 1, tmr, r⟩))

/-- R36, R56: how many port reads each command makes: two in INSERT, BUTTON and a LOAD that succeeds, five in CREATE,
none in any other command and none in a command that ends in an error. -/
def Obligations.PortReadCounts : Prop :=
  ∀ (i : Instr) (s t : State) (n : Nat) (r : List Byte), exec i s = .next t → t.obuf = answer n t.sr r → n ≤ 5 →
    t.ports.reads = s.ports.reads +
      (if n ≠ 0 then 0 else match i with
        | .insert => 2 | .button => 2 | .load _ => 2 | .create => 5
        | .mhenc _ => 0 | .mhdec _ => 0 | .crc16 _ => 0 | .aesenc _ _ => 0 | .gen => 0 | .save => 0) ∧
    (t.ports.reads = s.ports.reads → t.ports = s.ports)

/-- R153, R36: only INSERT, BUTTON, CREATE and LOAD change a token register, no command clears a token, and no command
writes IBUF or makes a move of the host's. -/
def Obligations.OnlyTransitionsChangeTheToken : Prop :=
  ∀ (i : Instr) (s t : State), exec i s = .next t →
    t.ibuf = s.ibuf ∧ t.host = s.host ∧ (s.valid = true → t.valid = true) ∧
    match i with
    | .insert => True | .button => True | .create => True | .load _ => True
    | .mhenc _ => t.held = s.held | .mhdec _ => t.held = s.held | .crc16 _ => t.held = s.held
    | .aesenc _ _ => t.held = s.held | .gen => t.held = s.held | .save => t.held = s.held

/-- R28: no command but CREATE and LOAD writes PUBID, KEY or SECID, and no command but these sets CTR to anything but CTR
or CTR + 1 modulo 65536. -/
def Obligations.IdentityIsImmutable : Prop :=
  ∀ (i : Instr) (s t : State) (k l : Token), exec i s = .next t → s.held = .token k → t.held = .token l →
    i ≠ .create → (∀ r, i ≠ .load r) →
    l.id = k.id ∧ (l.ctr = k.ctr ∨ l.ctr.toNat = (k.ctr.toNat + 1) % 65536)

/-- R222, R24, R25: the wraps are silent: INSERT takes CTR from 65535 to 0, BUTTON takes SCTR from 255 to 0 and keeps
CTR, both with status OK and SR = VALID. -/
def Obligations.CounterWrapsAreSilent : Prop :=
  ∀ (s : State) (k : Token), s.halt = false → s.held = .token k →
    (k.ctr = 65535 → ∃ t l, exec .insert s = .next t ∧ t.held = .token l ∧ l.ctr = 0 ∧ l.sctr = 0 ∧
      t.obuf = [0, 1, 0, 0]) ∧
    (k.sctr = 255 → ∃ t l, exec .button s = .next t ∧ t.held = .token l ∧ l.sctr = 0 ∧ l.ctr = k.ctr ∧
      t.obuf.take 4 = [0, 1, 44, 0])

/-- R154: two consecutive presses on the same token give different OTP texts, whatever the draws, and each advances SCTR;
between them the host may place any frame and the ports may answer anything. -/
def Obligations.ConsecutivePressesDiffer : Prop :=
  ∀ (s t u : State) (p : Ports) (f : List Byte) (h : List HostMove), s.halt = false → s.valid = true →
    exec .button s = .next t → exec .button { t with ports := p, ibuf := f, host := h } = .next u →
    t.obuf ≠ u.obuf ∧
    ∃ k l m, s.held = .token k ∧ t.held = .token l ∧ u.held = .token m ∧ l.sctr = k.sctr + 1 ∧ m.sctr = l.sctr + 1

/-- R221, R145: GEN repeats: after a GEN or a BUTTON, GEN returns the same text again and changes nothing at all; and
a command that changes no token register and does not halt the block leaves the text of GEN as it was. -/
def Obligations.GenRepeats : Prop :=
  (∀ s t : State, s.halt = false → s.valid = true → (exec .gen s = .next t ∨ exec .button s = .next t) →
    exec .gen t = .next t) ∧
  (∀ (i : Instr) (s t u : State), exec i s = .next t → t.held = s.held → t.halt = false → exec .gen s = .next u →
    ∃ v, exec .gen t = .next v ∧ v.obuf = u.obuf)

/-! The Persistence Format Adapter -/

/-- R175, R165 to R168: Format writes the five lines with their exact labels, each ended by LF, the public id in modhex,
KEY and SECID in lowercase hex, the counter as the shortest decimal numeral; 126 to 130 bytes. -/
def Obligations.FormatWritesRecord : Prop :=
  ∀ (id : Identity) (ctr : Word16), ∃ digits, IsShortestNumeral digits ctr.toNat ∧
    format id ctr = recordText (modhexText id.pubid.toList) (hexText id.key.toList) (hexText id.secid.toList) digits
      noBlanks noBlanks [0x0A] ∧
    (format id ctr).length = 125 + digits.length

/-- R165 to R173, R177: Parse accepts exactly the texts of the record grammar, blanks allowed around each value and the
last LF optional, and returns the fields they show; every other text is one `FormatError` that carries it whole. -/
def Obligations.ParseAcceptsExactlyTheGrammar : Prop :=
  (∀ (t : List Byte) (id : Identity) (ctr : Word16),
    parse t = .ok (id, ctr) ↔
      ∃ (digits : List Byte) (a b : Fin 4 → List Byte) (last : List Byte),
        (∀ j, IsBlanks (a j) ∧ IsBlanks (b j)) ∧ IsDigits digits ∧ 1 ≤ digits.length ∧ digits.length ≤ 5 ∧
        numeral digits = ctr.toNat ∧ (last = [] ∨ last = [0x0A]) ∧
        t = recordText (modhexText id.pubid.toList) (hexText id.key.toList) (hexText id.secid.toList) digits a b last) ∧
  (∀ (t : List Byte) (e : Err), parse t = .error e → e = .formatError t)

/-- R178: Parse after Format gives the persisted fields back; SAVE followed by LOAD of its result, at once or in any
later state that is not halted (after a reset, say), keeps the identity and leaves CTR + 1 and SCTR = 0; and a text that
Format gives back after Parse is in Format's own form. -/
def Obligations.RecordRoundTrip : Prop :=
  (∀ (id : Identity) (ctr : Word16), parse (format id ctr) = .ok (id, ctr)) ∧
  (∀ (s : State) (k : Token), s.halt = false → s.held = .token k →
    ∃ record u, exec .save s = .next u ∧ u = { s with obuf := answer 0 1 record } ∧
      (∃ t l, exec (.load record) u = .next t ∧ t.held = .token l ∧ l.id = k.id ∧ l.ctr = k.ctr + 1 ∧ l.sctr = 0) ∧
      ∀ v : State, v.halt = false →
        ∃ t l, exec (.load record) v = .next t ∧ t.held = .token l ∧ l.id = k.id ∧ l.ctr = k.ctr + 1 ∧ l.sctr = 0) ∧
  (∀ (t : List Byte) (id : Identity) (ctr : Word16), parse t = .ok (id, ctr) → format id ctr = t →
    ∃ digits, IsShortestNumeral digits ctr.toNat ∧
      t = recordText (modhexText id.pubid.toList) (hexText id.key.toList) (hexText id.secid.toList) digits
        noBlanks noBlanks [0x0A])

/-- R174, R194: LOAD of a record that parses replaces the token by the record's, then runs the insertion: CTR one more
than the record's, SCTR 0, RND and TMR from the ports. LOAD of any other text answers `FormatError` with the text and
changes nothing but OBUF. -/
def Obligations.LoadRestoresOrRejects : Prop :=
  ∀ (s : State) (t : List Byte), s.halt = false →
    (∀ id ctr, parse t = .ok (id, ctr) →
      exec (.load t) s = .next { s with
        held := .token ⟨id, BitVec.ofNat 16 ((ctr.toNat + 1) % 65536), 0,
          BitVec.ofNat 24 (s.ports.drawU16.2.clockTicks.1 % 2 ^ 24), s.ports.drawU16.1⟩,
        ports := s.ports.drawU16.2.clockTicks.2, obuf := answer 0 1 [] }) ∧
    ((∀ r, parse t ≠ .ok r) → exec (.load t) s = .next { s with obuf := answer 4 s.sr t })

/-- R176, R193: SAVE with a token held answers the record text and changes nothing but OBUF; with no token held it is
`InvalidState`, fatal, with no register written. -/
def Obligations.SaveAnswersRecord : Prop :=
  ∀ s : State, s.halt = false →
    (∀ k, s.held = .token k →
      exec .save s = .next { s with obuf := answer 0 1 (format k.id k.ctr) } ∧
      126 ≤ (format k.id k.ctr).length ∧ (format k.id k.ctr).length ≤ 130) ∧
    (s.held = .noToken → exec .save s = .next { s with halt := true, obuf := [3, 2, 0, 0] })

/-- R173, R179: which counter lines are accepted and which are not, and the other rejections of R179 that lie in a
field's value. -/
def Obligations.RecordValuesRejected : Prop :=
  let c := copies 12 'c'
  let k := copies 32 '0'
  let s := copies 12 '0'
  (∀ id : Identity, id.pubid.toList = List.replicate 6 0 → id.key.toList = List.replicate 16 0 →
    id.secid.toList = List.replicate 6 0 →
    parse (recordV c k s (ascii ['0'])) = .ok (id, 0) ∧ parse (recordV c k s (ascii [' ', ' ', '0', '\t'])) = .ok (id, 0) ∧
    parse (recordV c k s (copies 5 '0')) = .ok (id, 0) ∧
    parse (recordV c k s (ascii ['6', '5', '5', '3', '5'])) = .ok (id, 65535)) ∧
  Rejected (recordV c k s (ascii ['7', '0', '0', '0', '0'])) ∧ Rejected (recordV c k s (ascii ['6', '5', '5', '3', '6'])) ∧
  Rejected (recordV c k s (copies 6 '0')) ∧ Rejected (recordV c k s (ascii ['-', '1'])) ∧ Rejected (recordV c k s []) ∧
  Rejected (recordV (copies 11 'c') k s (ascii ['0'])) ∧ Rejected (recordV (copies 11 'c' ++ ascii ['a']) k s (ascii ['0'])) ∧
  Rejected (recordV (copies 12 'C') k s (ascii ['0'])) ∧ Rejected (recordV c (copies 31 '0') s (ascii ['0'])) ∧
  Rejected (recordV c (copies 31 '0' ++ ascii ['G']) s (ascii ['0'])) ∧
  Rejected (recordV c (copies 31 '0' ++ ascii ['A']) s (ascii ['0'])) ∧
  Rejected (recordV c k (copies 11 '0' ++ ascii ['g']) (ascii ['0'])) ∧
  Rejected (recordV c k (copies 4 '0' ++ ascii [' '] ++ copies 8 '0') (ascii ['0'])) ∧ Rejected []

/-- R166 to R168, R179: the rejections of R179 that lie in the shape of the record: its lines, its labels, its header and
its line ends; and that the last LF may be missing. -/
def Obligations.RecordShapesRejected : Prop :=
  let v := recordV (copies 12 'c') (copies 32 '0') (copies 12 '0') (ascii ['0'])
  v.length = 126 ∧ parse v.dropLast = parse v ∧ (∃ r, parse v = .ok r) ∧
  Rejected (v ++ [0x0A]) ∧ Rejected (v ++ ascii ['X', '\n']) ∧ Rejected (v.take 115) ∧ Rejected (v.take 114) ∧
  Rejected (v.take 18 ++ [0x0A] ++ v.drop 18) ∧ Rejected (v.take 91 ++ v.drop 115 ++ (v.drop 91).take 24) ∧
  Rejected (v.eraseIdx 123) ∧ Rejected (v.set 115 0x63) ∧ Rejected (v.set 16 0x32) ∧
  Rejected (v.take 17 ++ [0x20] ++ v.drop 17) ∧ Rejected (0x20 :: v) ∧
  Rejected (v.flatMap fun ch => if ch = 0x0A then [0x0D, 0x0A] else [ch])

/-- R22, R198: the key is not transmitted: the answer of every command but GEN, BUTTON and SAVE is the same whatever
token is held. -/
def Obligations.AnswersDoNotShowTheToken : Prop :=
  ∀ (i : Instr) (s t u : State) (k l : Token), i ≠ .gen → i ≠ .button → i ≠ .save →
    exec i { s with held := .token k } = .next t → exec i { s with held := .token l } = .next u → t.obuf = u.obuf
end

