-- ==== Sys2Proof/Laws/Units.lean ====
section
/-! SUPPORT. What the CRC engine and the cipher answer on inputs of the legal length, and the lengths that make the
pipeline's checks dead (43_otp_pipeline.md R146). -/

namespace Sys2Proof.Machine

theorem crc16_of_length {b : List Byte} (h : b.length = 14) : crc16 b = .ok (b.foldl crcByte crcInit) := by
  simp [crc16, crcLen, h]

theorem crc16_of_wrong_length {b : List Byte} (h : b.length ≠ 14) : crc16 b = .error .invalidLength := by
  simp [crc16, crcLen, h]

theorem aes128Enc_of_lengths {k p : List Byte} (hk : k.length = 16) (hp : p.length = 16) :
    aes128Enc k p = .ok (aesBlock (keyExpansion k) p) := by simp [aes128Enc, hk, hp]

theorem aes128Enc_of_wrong_key {k p : List Byte} (hk : k.length ≠ 16) : aes128Enc k p = .error .invalidState := by
  simp [aes128Enc, hk]

theorem aes128Enc_of_wrong_block {k p : List Byte} (hk : k.length = 16) (hp : p.length ≠ 16) :
    aes128Enc k p = .error .internal := by simp [aes128Enc, hk, hp]

/-- R140: the plaintext buffer is 14 bytes always. -/
theorem plaintext_length (t : Token) : (plaintext t).length = 14 := by simp [plaintext, leBytes]

theorem shiftRows_length (s : List Byte) : (shiftRows s).length = 16 := by simp [shiftRows, shiftRowsIndex]

theorem mixColumns_length (s : List Byte) : (mixColumns s).length = s.length / 4 * 4 := by
  induction s using mixColumns.induct with
  | case1 a0 a1 a2 a3 rest ih => simp [mixColumns, mixColumn, ih]; omega
  | case2 s h =>
    have h4 : s.length < 4 := by
      exact match s, h with
      | [], _ => by simp
      | [_], _ => by simp
      | [_, _], _ => by simp
      | [_, _, _], _ => by simp
      | a :: b :: c :: d :: s, h => (h a b c d s rfl).elim
    simp [mixColumns, Nat.div_eq_of_lt h4]

theorem expandFrom_length (k i : Nat) (a b c d : KeyWord) : (expandFrom k i a b c d).length = k := by
  induction k generalizing i a b c d with
  | zero => rfl
  | succ k ih => simp [expandFrom, ih]

theorem keyExpansion_length (k : List Byte) : (keyExpansion k).length = 44 := by
  simp [keyExpansion, expandFrom_length]

theorem flatMap_wordBytes_length (w : List KeyWord) : (w.flatMap wordBytes).length = 4 * w.length := by
  induction w with
  | nil => rfl
  | cons x w ih => simp [wordBytes] at ih ⊢; omega

/-- R129: a round key of an expanded key is 16 bytes, for r from 0 to 10. -/
theorem roundKey_length (k : List Byte) {r : Nat} (hr : r ≤ 10) : (roundKey (keyExpansion k) r).length = 16 := by
  simp only [roundKey, flatMap_wordBytes_length, List.length_take, List.length_drop, keyExpansion_length]
  omega

theorem addRoundKey_length {s rk : List Byte} (hs : s.length = 16) (hr : rk.length = 16) :
    (addRoundKey s rk).length = 16 := by simp [addRoundKey, hs, hr]

/-- R121: the cipher's output is a block. -/
theorem aesBlock_length (k p : List Byte) : (aesBlock (keyExpansion k) p).length = 16 :=
  addRoundKey_length (shiftRows_length _) (roundKey_length k (by decide))

/-! The CRC on unsigned numbers -/

theorem crcRound_toNat (a : Word16) : (crcRound a).toNat = checksumRound a.toNat := by
  have hbit : a.getLsbD 0 = decide (a.toNat % 2 = 1) := by
    rw [BitVec.getLsbD, Nat.testBit_zero]
  unfold crcRound checksumRound crcPoly
  rw [hbit]
  by_cases h : a.toNat % 2 = 1 <;> simp [h, Nat.shiftRight_eq_div_pow]

theorem crcRounds_toNat (k : Nat) (a : Word16) : (crcRounds k a).toNat = checksumRound^[k] a.toNat := by
  induction k generalizing a with
  | zero => rfl
  | succ k ih => rw [crcRounds, ih, crcRound_toNat, Function.iterate_succ_apply]

/-- R111: one byte of the input. -/
theorem crcByte_toNat (a : Word16) (b : Byte) : (crcByte a b).toNat = checksumRound^[8] (a.toNat ^^^ b.toNat) := by
  rw [crcByte, crcRounds_toNat]; congr 1

end Sys2Proof.Machine
end

