-- ==== Sys2Proof/Laws/Aes.lean ====
section
/-! SUPPORT. Each step of the cipher can be undone (42_aes128.md R122, 93_implementation_defined.md G5): the S-box is a
permutation, ShiftRows a rearrangement, MixColumns a matrix with an inverse, AddRoundKey its own inverse. -/

namespace Sys2Proof.Machine

/-- Where a byte stands in the S-box. -/
def sboxInverse (v : Byte) : Byte := BitVec.ofNat 8 (sboxTable.flatten.idxOf v)

theorem sboxInverse_sbox (v : Byte) : sboxInverse (sbox v) = v := by
  revert v; decide +kernel

theorem sbox_sboxInverse (v : Byte) : sbox (sboxInverse v) = v := by
  revert v; decide +kernel

theorem sbox_injective : Function.Injective sbox := fun a b h => by
  rw [← sboxInverse_sbox a, h, sboxInverse_sbox]

theorem subBytes_injective : Function.Injective subBytes := List.map_injective_iff.2 sbox_injective

theorem addRoundKey_addRoundKey {s rk : List Byte} (h : s.length = rk.length) :
    addRoundKey (addRoundKey s rk) rk = s := by
  induction s generalizing rk with
  | nil => simp [addRoundKey]
  | cons a s ih =>
    cases rk with
    | nil => cases h
    | cons b rk =>
      have hc : (a ^^^ b) ^^^ b = a := by rw [BitVec.xor_assoc, BitVec.xor_self, BitVec.xor_zero]
      have ht := ih (rk := rk) (by simpa using h)
      simp only [addRoundKey, List.zipWith_cons_cons, hc] at ht ⊢
      rw [ht]

/-- R124: multiplication by x is linear over exclusive-or. -/
theorem xtime_xor (a b : Byte) : xtime (a ^^^ b) = xtime a ^^^ xtime b := by
  unfold xtime
  rw [BitVec.getLsbD_xor, BitVec.shiftLeft_xor_distrib]
  cases a.getLsbD 7 <;> cases b.getLsbD 7 <;> simp
  · ac_rfl
  · ac_rfl
  · rw [show a <<< 1 ^^^ 27#8 ^^^ (b <<< 1 ^^^ 27#8) = a <<< 1 ^^^ b <<< 1 ^^^ (27#8 ^^^ 27#8) by ac_rfl]
    simp

theorem gmulLoop_xor (k : Nat) (a b c r q : Byte) :
    gmulLoop k (a ^^^ b) c (r ^^^ q) = gmulLoop k a c r ^^^ gmulLoop k b c q := by
  induction k generalizing a b c r q with
  | zero => rfl
  | succ k ih =>
    rw [gmulLoop, gmulLoop, gmulLoop, xtime_xor, ← ih]
    congr 1
    cases c.getLsbD 0
    · simp
    · simp only [if_true]; ac_rfl

/-- R124: `gmul` is linear in its first argument. -/
theorem gmul_xor (a b c : Byte) : gmul (a ^^^ b) c = gmul a c ^^^ gmul b c := by
  have h := gmulLoop_xor 8 a b c 0 0
  simpa [gmul] using h

/-- One row of the product of the two matrices, on one byte: on the diagonal. -/
theorem mix_diagonal (a : Byte) :
    gmul (gmul a 2) 14 ^^^ gmul a 11 ^^^ gmul a 13 ^^^ gmul (gmul a 3) 9 = a := by
  revert a; decide +kernel

/-- The three products off the diagonal vanish. -/
theorem mix_off_diagonal (a : Byte) :
    gmul (gmul a 3) 14 ^^^ gmul (gmul a 2) 11 ^^^ gmul a 13 ^^^ gmul a 9 = 0 ∧
    gmul a 14 ^^^ gmul (gmul a 3) 11 ^^^ gmul (gmul a 2) 13 ^^^ gmul a 9 = 0 ∧
    gmul a 14 ^^^ gmul a 11 ^^^ gmul (gmul a 3) 13 ^^^ gmul (gmul a 2) 9 = 0 := by
  revert a; decide +kernel

theorem unmix_row (a0 a1 a2 a3 : Byte) :
    gmul (gmul a0 2 ^^^ gmul a1 3 ^^^ a2 ^^^ a3) 14 ^^^ gmul (a0 ^^^ gmul a1 2 ^^^ gmul a2 3 ^^^ a3) 11 ^^^
      gmul (a0 ^^^ a1 ^^^ gmul a2 2 ^^^ gmul a3 3) 13 ^^^ gmul (gmul a0 3 ^^^ a1 ^^^ a2 ^^^ gmul a3 2) 9 = a0 := by
  simp only [gmul_xor]
  have h0 := mix_diagonal a0
  have h1 := (mix_off_diagonal a1).1
  have h2 := (mix_off_diagonal a2).2.1
  have h3 := (mix_off_diagonal a3).2.2
  calc _ = (gmul (gmul a0 2) 14 ^^^ gmul a0 11 ^^^ gmul a0 13 ^^^ gmul (gmul a0 3) 9) ^^^
        (gmul (gmul a1 3) 14 ^^^ gmul (gmul a1 2) 11 ^^^ gmul a1 13 ^^^ gmul a1 9) ^^^
        (gmul a2 14 ^^^ gmul (gmul a2 3) 11 ^^^ gmul (gmul a2 2) 13 ^^^ gmul a2 9) ^^^
        (gmul a3 14 ^^^ gmul a3 11 ^^^ gmul (gmul a3 3) 13 ^^^ gmul (gmul a3 2) 9) := by ac_rfl
    _ = a0 := by rw [h0, h1, h2, h3]; simp

/-- R128: turning the column turns the result. -/
theorem mixColumn_rotate (a0 a1 a2 a3 : Byte) : mixColumn a1 a2 a3 a0 = (mixColumn a0 a1 a2 a3).rotate 1 := by
  simp only [mixColumn, List.rotate_cons_succ, List.rotate_zero, List.cons_append, List.nil_append, List.cons.injEq,
    and_true]
  refine ⟨?_, ?_, ?_, ?_⟩ <;> ac_rfl

theorem mixColumn_first {a0 a1 a2 a3 b0 b1 b2 b3 : Byte} (h : mixColumn a0 a1 a2 a3 = mixColumn b0 b1 b2 b3) :
    a0 = b0 := by
  simp only [mixColumn, List.cons.injEq, and_true] at h
  obtain ⟨e0, e1, e2, e3⟩ := h
  rw [← unmix_row a0 a1 a2 a3, ← unmix_row b0 b1 b2 b3, e0, e1, e2, e3]

/-- A column of MixColumns determines the column it came from. -/
theorem mixColumn_injective {a0 a1 a2 a3 b0 b1 b2 b3 : Byte} (h : mixColumn a0 a1 a2 a3 = mixColumn b0 b1 b2 b3) :
    a0 = b0 ∧ a1 = b1 ∧ a2 = b2 ∧ a3 = b3 := by
  have h1 : mixColumn a1 a2 a3 a0 = mixColumn b1 b2 b3 b0 := by rw [mixColumn_rotate, h, ← mixColumn_rotate]
  have h2 : mixColumn a2 a3 a0 a1 = mixColumn b2 b3 b0 b1 := by rw [mixColumn_rotate, h1, ← mixColumn_rotate]
  have h3 : mixColumn a3 a0 a1 a2 = mixColumn b3 b0 b1 b2 := by rw [mixColumn_rotate, h2, ← mixColumn_rotate]
  exact ⟨mixColumn_first h, mixColumn_first h1, mixColumn_first h2, mixColumn_first h3⟩

theorem mixColumns_injective {s t : List Byte} (hs : 4 ∣ s.length) (ht : 4 ∣ t.length)
    (h : mixColumns s = mixColumns t) : s = t := by
  induction s using mixColumns.induct generalizing t with
  | case1 a0 a1 a2 a3 rest ih =>
    match t, ht, h with
    | b0 :: b1 :: b2 :: b3 :: rest', ht, h =>
      rw [mixColumns, mixColumns] at h
      obtain ⟨hc, hr⟩ := List.append_inj h (by simp [mixColumn])
      obtain ⟨rfl, rfl, rfl, rfl⟩ := mixColumn_injective hc
      rw [ih (by simp at hs; omega) (by simp at ht; omega) hr]
    | [], _, h => simp [mixColumns, mixColumn] at h
    | [_], ht, _ => simp at ht
    | [_, _], ht, _ => simp at ht
    | [_, _, _], ht, _ => simp at ht
  | case2 s hcase =>
    have hs0 : s = [] := by
      match s, hs, hcase with
      | [], _, _ => rfl
      | [_], hs, _ => simp at hs
      | [_, _], hs, _ => simp at hs
      | [_, _, _], hs, _ => simp at hs
      | a :: b :: c :: d :: s, _, hcase => exact (hcase a b c d s rfl).elim
    subst hs0
    have hl := congrArg List.length h
    rw [mixColumns_length, mixColumns_length] at hl
    have : t.length = 0 := by simp at hl; omega
    exact (List.length_eq_zero_iff.1 this).symm

/-- Two states of 16 bytes with the same ShiftRows are the same. -/
theorem shiftRows_injective {s t : List Byte} (hs : s.length = 16) (ht : t.length = 16)
    (h : shiftRows s = shiftRows t) : s = t := by
  have key : ∀ i ∈ shiftRowsIndex, s.getD i 0 = t.getD i 0 := List.map_inj_left.1 h
  apply List.ext_getElem (hs.trans ht.symm)
  intro i h1 h2
  have hm : i ∈ shiftRowsIndex := by
    have : i < 16 := hs ▸ h1
    simp only [shiftRowsIndex, List.mem_cons, List.not_mem_nil, or_false]
    omega
  have := key i hm
  simpa [List.getD_eq_getElem?_getD, h1, h2] using this

end Sys2Proof.Machine
end

