-- ==== Sys2Proof/Laws/State.lean ====
section
/-! SUPPORT. One lemma per field of State for each update the machine makes, all by rfl, and what SR reads as. -/

namespace Sys2Proof.Machine

variable (s : State) (st : Byte) (r : List Byte) (e : Err) (x : Token × Ports) (f : List Byte)

@[simp] theorem respond_held : (s.respond st r).held = s.held := rfl
@[simp] theorem respond_halt : (s.respond st r).halt = s.halt := rfl
@[simp] theorem respond_ibuf : (s.respond st r).ibuf = s.ibuf := rfl
@[simp] theorem respond_obuf : (s.respond st r).obuf = responseFrame st s.sr r := rfl
@[simp] theorem respond_host : (s.respond st r).host = s.host := rfl
@[simp] theorem respond_ports : (s.respond st r).ports = s.ports := rfl

@[simp] theorem raise_held : (s.raise e).held = s.held := rfl
@[simp] theorem raise_halt : (s.raise e).halt = (s.halt || e.fatal) := rfl
@[simp] theorem raise_ibuf : (s.raise e).ibuf = s.ibuf := rfl
@[simp] theorem raise_host : (s.raise e).host = s.host := rfl
@[simp] theorem raise_ports : (s.raise e).ports = s.ports := rfl
theorem raise_obuf : (s.raise e).obuf = responseFrame e.code (s.raise e).sr e.info := rfl

@[simp] theorem hold_held : (s.hold x).held = .token x.1 := rfl
@[simp] theorem hold_halt : (s.hold x).halt = s.halt := rfl
@[simp] theorem hold_ibuf : (s.hold x).ibuf = s.ibuf := rfl
@[simp] theorem hold_obuf : (s.hold x).obuf = s.obuf := rfl
@[simp] theorem hold_host : (s.hold x).host = s.host := rfl
@[simp] theorem hold_ports : (s.hold x).ports = x.2 := rfl

@[simp] theorem writeFrame_held : (writeFrame f s).held = s.held := rfl
@[simp] theorem writeFrame_halt : (writeFrame f s).halt = s.halt := rfl
@[simp] theorem writeFrame_ibuf : (writeFrame f s).ibuf = f := rfl
@[simp] theorem writeFrame_obuf : (writeFrame f s).obuf = s.obuf := rfl
@[simp] theorem writeFrame_host : (writeFrame f s).host = s.host := rfl
@[simp] theorem writeFrame_ports : (writeFrame f s).ports = s.ports := rfl

@[simp] theorem resetBlock_held : (resetBlock s).held = .noToken := rfl
@[simp] theorem resetBlock_halt : (resetBlock s).halt = false := rfl
@[simp] theorem resetBlock_ibuf : (resetBlock s).ibuf = [] := rfl
@[simp] theorem resetBlock_obuf : (resetBlock s).obuf = [] := rfl
@[simp] theorem resetBlock_host : (resetBlock s).host = s.host := rfl
@[simp] theorem resetBlock_ports : (resetBlock s).ports = s.ports := rfl

/-- SR reads VALID and HALT and nothing else of the state. -/
theorem sr_congr {s t : State} (hv : s.valid = t.valid) (hh : s.halt = t.halt) : s.sr = t.sr := by
  simp [State.sr, hv, hh]

theorem valid_congr {s t : State} (h : s.held = t.held) : s.valid = t.valid := by simp [State.valid, h]

@[simp] theorem valid_of_token {s : State} {t : Token} (h : s.held = .token t) : s.valid = true := by
  simp [State.valid, h]

@[simp] theorem valid_of_noToken {s : State} (h : s.held = .noToken) : s.valid = false := by
  simp [State.valid, h]

@[simp] theorem hold_valid : (s.hold x).valid = true := rfl
@[simp] theorem respond_valid : (s.respond st r).valid = s.valid := rfl
@[simp] theorem raise_valid : (s.raise e).valid = s.valid := rfl
@[simp] theorem writeFrame_valid : (writeFrame f s).valid = s.valid := rfl
@[simp] theorem resetBlock_valid : (resetBlock s).valid = false := rfl

@[simp] theorem respond_sr : (s.respond st r).sr = s.sr := rfl
@[simp] theorem writeFrame_sr : (writeFrame f s).sr = s.sr := rfl
@[simp] theorem resetBlock_sr : (resetBlock s).sr = 0 := by simp [State.sr]

/-- R29: the four legal values of SR. -/
theorem sr_eq : s.sr = match s.valid, s.halt with
    | false, false => 0 | true, false => 1 | false, true => 2 | true, true => 3 := by
  cases hv : s.valid <;> cases hh : s.halt <;> simp [State.sr, hv, hh]

end Sys2Proof.Machine
end

