-- ==== Sys2Proof/Laws/Ops.lean ====
section
/-! SUPPORT. One lemma for each shared operation of Machine/Ops.lean: everything it can do. -/

namespace Sys2Proof.Machine

/-- `le_2` written out: the low byte, then the high byte. -/
theorem leBytes_two (v : Nat) : leBytes 2 v = [BitVec.ofNat 8 (v % 256), BitVec.ofNat 8 (v / 256)] := by
  have h : BitVec.ofNat 8 v = BitVec.ofNat 8 (v % 256) := by
    apply BitVec.eq_of_toNat_eq
    simp
  simp [leBytes, List.range_succ, Nat.shiftRight_eq_div_pow, h]

/-- R76: the frame the machine writes is the response of the spec's table. -/
theorem responseFrame_eq_answer (n : Nat) (sr : Byte) (r : List Byte) :
    responseFrame (BitVec.ofNat 8 n) sr r = answer n sr r := by
  simp [responseFrame, answer, leBytes_two]

theorem leBytes_length (k v : Nat) : (leBytes k v).length = k := by simp [leBytes]

/-- R52: OLEN = 4 + RLEN. -/
theorem answer_length (n : Nat) (sr : Byte) (r : List Byte) : (answer n sr r).length = 4 + r.length := by
  simp [answer]; omega

/-- R76: a response shows its STATUS, its SR byte and its RESULT. -/
theorem answer_injective {n m : Nat} {a b : Byte} {r q : List Byte} (hn : n < 256) (hm : m < 256)
    (h : answer n a r = answer m b q) : n = m ∧ a = b ∧ r = q := by
  simp only [answer, List.cons_append, List.nil_append, List.cons.injEq] at h
  obtain ⟨h1, h2, _, _, h3⟩ := h
  have ht := congrArg BitVec.toNat h1
  simp only [BitVec.toNat_ofNat] at ht
  exact ⟨by omega, h2, h3⟩

/-- R11, R187: how a command's end answers: OK with the value, or the error's code and information. -/
theorem finish_answer (s : State) (x : Except Err (List Byte)) :
    (∃ v, x = .ok v ∧ s.finish x = { s with obuf := answer 0 s.sr v }) ∨
    ∃ e n, x = .error e ∧ s.finish x = s.raise e ∧ (s.raise e).obuf = answer n (s.raise e).sr e.info ∧
      1 ≤ n ∧ n ≤ 5 ∧ (e.fatal = true ↔ n = 3 ∨ n = 5) := by
  cases x with
  | ok v =>
    refine .inl ⟨v, rfl, ?_⟩
    show s.respond statusOk v = _
    rw [State.respond, ← responseFrame_eq_answer]; rfl
  | error e =>
    refine .inr ⟨e, e.code.toNat, rfl, rfl, ?_, ?_⟩
    · rw [raise_obuf, ← responseFrame_eq_answer]; simp
    · cases e <;> simp [Err.code, Err.fatal]

/-- R33: what `DrawU16()` answers and what it leaves of the ports. -/
theorem drawU16_cases (p : Ports) :
    (∃ v rest, p.u16s = v :: rest ∧ p.drawU16 = (v, { p with u16s := rest, reads := p.reads + 1 })) ∨
    (p.u16s = [] ∧ p.drawU16 = (Config.freeU16 p.reads, { p with reads := p.reads + 1 })) := by
  cases h : p.u16s <;> simp [Ports.drawU16, h]

/-- R34: what `ClockTicks()` answers and what it leaves of the ports. -/
theorem clockTicks_cases (p : Ports) :
    (∃ v rest, p.ticks = v :: rest ∧ p.clockTicks = (v, { p with ticks := rest, reads := p.reads + 1 })) ∨
    (p.ticks = [] ∧ p.clockTicks = (Config.freeTicks p.reads, { p with reads := p.reads + 1 })) := by
  cases h : p.ticks <;> simp [Ports.clockTicks, h]

@[simp] theorem drawU16_reads (p : Ports) : p.drawU16.2.reads = p.reads + 1 := by
  cases h : p.u16s <;> simp [Ports.drawU16, h]

@[simp] theorem clockTicks_reads (p : Ports) : p.clockTicks.2.reads = p.reads + 1 := by
  cases h : p.ticks <;> simp [Ports.clockTicks, h]

@[simp] theorem drawBytes_reads (n : Nat) (p : Ports) : (p.drawBytes n).2.reads = p.reads + 1 := rfl

/-- R187, R190: what raising an error leaves, as one state. -/
theorem raise_eq (s : State) (e : Err) :
    s.raise e = { s with halt := s.halt || e.fatal, obuf := responseFrame e.code (s.raise e).sr e.info } := rfl

/-- R188: a caller-input error changes OBUF only. -/
theorem raise_of_not_fatal (s : State) (e : Err) (h : e.fatal = false) :
    s.raise e = { s with obuf := responseFrame e.code s.sr e.info } := by
  simp only [State.raise, State.respond, h, Bool.or_false]

/-- R191, R11: everything a command can do: the halt check, or its body and its end. -/
theorem command_cases (body : State → State × Except Err (List Byte)) (s : State) :
    (s.halt = true ∧ command body s = .next (s.raise .invalidState)) ∨
    (s.halt = false ∧ command body s = .next ((body s).1.finish (body s).2)) := by
  cases h : s.halt <;> simp [command, h]

theorem command_halted {body : State → State × Except Err (List Byte)} {s : State} (h : s.halt = true) :
    command body s = .next (s.raise .invalidState) := by simp [command, h]

theorem command_running {body : State → State × Except Err (List Byte)} {s : State} (h : s.halt = false) :
    command body s = .next ((body s).1.finish (body s).2) := by simp [command, h]

theorem withToken_noToken {body : Token → State → State × Except Err (List Byte)} {s : State}
    (h : s.held = .noToken) : withToken body s = (s, .error .invalidState) := by simp [withToken, h]

theorem withToken_token {body : Token → State → State × Except Err (List Byte)} {s : State} {t : Token}
    (h : s.held = .token t) : withToken body s = body t s := by simp [withToken, h]

end Sys2Proof.Machine
end

