-- ==== Sys2Proof/Laws/Exec.lean ====
section
/-! SUPPORT. Every command is its body between the halt check and the response, so a claim about all commands is a
claim about bodies. -/

namespace Sys2Proof.Machine

/-- The body of each command: the registers and ports it leaves, and its result or its error. -/
def bodyOf : Instr → State → State × Except Err (List Byte)
  | .mhenc t, s => (s, mhEnc t)
  | .mhdec t, s => (s, mhDec t)
  | .crc16 b, s => (s, (crc16 b).map fun c => leBytes 2 c.toNat)
  | .aesenc k p, s => (s, aes128Enc k p)
  | .gen, s => withToken (fun t s => (s, runPipeline t)) s
  | .insert, s => withToken (fun t s => (s.hold (insertion t.id t.ctr s.ports), .ok [])) s
  | .button, s => withToken (fun t s =>
      (s.hold (sanitize t.id t.ctr (t.sctr + 1) s.ports), runPipeline (sanitize t.id t.ctr (t.sctr + 1) s.ports).1)) s
  | .create, s => (s.hold (insertion (drawIdentity s.ports).1 0 (drawIdentity s.ports).2), .ok [])
  | .load t, s =>
    match parse t with
    | .error e => (s, .error e)
    | .ok (id, ctr) => (s.hold (insertion id ctr s.ports), .ok [])
  | .save, s => withToken (fun t s => (s, .ok (format t.id t.ctr))) s

theorem exec_eq_command (i : Instr) (s : State) : exec i s = command (bodyOf i) s := by
  cases i <;> rfl

/-- Everything a command can answer: halted, `InvalidState`; running, its body and its end. -/
theorem exec_cases (i : Instr) (s : State) :
    (s.halt = true ∧ exec i s = .next (s.raise .invalidState)) ∨
    (s.halt = false ∧ exec i s = .next ((bodyOf i s).1.finish (bodyOf i s).2)) := by
  rw [exec_eq_command]; exact command_cases _ s

/-- A running command whose body ends in a value answers OK with it. -/
theorem exec_ok {i : Instr} {s s' : State} {v : List Byte} (h : s.halt = false) (hb : bodyOf i s = (s', .ok v)) :
    exec i s = .next { s' with obuf := answer 0 s'.sr v } := by
  rw [exec_eq_command, command_running h, hb, ← responseFrame_eq_answer]; rfl

/-- A running command whose body ends in an error answers with that error. -/
theorem exec_error {i : Instr} {s s' : State} {e : Err} (h : s.halt = false) (hb : bodyOf i s = (s', .error e)) :
    exec i s = .next (s'.raise e) := by
  rw [exec_eq_command, command_running h, hb]; rfl

/-- No body touches HALT, the buffers or the host's moves. -/
theorem bodyOf_frame (i : Instr) (s : State) :
    (bodyOf i s).1.halt = s.halt ∧ (bodyOf i s).1.ibuf = s.ibuf ∧ (bodyOf i s).1.obuf = s.obuf ∧
      (bodyOf i s).1.host = s.host := by
  cases i <;> simp only [bodyOf]
  case gen | insert | button | save => cases h : s.held <;> simp [withToken, h]
  case load t => cases parse t <;> simp
  all_goals simp

/-- Everything a step can do with the host's next move. -/
theorem step_cases (s : State) :
    (s.host = [] ∧ step s = .next s) ∨
    (∃ rest, s.host = .reset :: rest ∧ step s = .next (resetBlock { s with host := rest })) ∨
    (∃ rest, s.host = .readResponse :: rest ∧ step s = .next { s with host := rest }) ∨
    (∃ f rest, s.host = .command f :: rest ∧ step s = runFrame f { s with host := rest }) := by
  rcases h : s.host with _ | ⟨_ | f | _, rest⟩ <;> simp [step, runMove, h]

end Sys2Proof.Machine
end

