-- ==== Sys2Proof/Laws/Operands.lean ====
section
/-! SUPPORT. The digit alphabets, nibble packing and the codecs on the outputs of each other. -/

namespace Sys2Proof.Machine

theorem nibbleOfLowerHex_hexDigit (n : Nibble) : nibbleOfLowerHex (hexDigit n) = some n := by
  revert n; decide

theorem nibbleOfHex_hexDigit (n : Nibble) : nibbleOfHex (hexDigit n) = some n := by
  revert n; decide

theorem nibbleOfModhex_modhexLetter (n : Nibble) : nibbleOfModhex (modhexLetter n) = some n := by
  revert n; decide

theorem nibbles_map {f : Byte → Option Nibble} {g : Nibble → Byte} (h : ∀ n, f (g n) = some n) (ns : List Nibble) :
    nibbles f (ns.map g) = some ns := by
  induction ns with
  | nil => rfl
  | cons n ns ih => simp [nibbles, h n, ih]

theorem nibbles_length {f : Byte → Option Nibble} {t : List Byte} {ns : List Nibble} (h : nibbles f t = some ns) :
    ns.length = t.length := by
  induction t generalizing ns with
  | nil => simp [nibbles] at h; simp [← h]
  | cons ch t ih =>
    simp only [nibbles] at h
    split at h
    · next _ ns' _ h2 => cases h; simp [ih h2]
    · cases h

theorem unpackNibbles_length (b : List Byte) : (unpackNibbles b).length = 2 * b.length := by
  induction b with
  | nil => rfl
  | cons x b ih => simp [unpackNibbles] at ih ⊢; omega

theorem hex_length (b : List Byte) : (hex b).length = 2 * b.length := by simp [hex, unpackNibbles_length]

theorem modhexOfBytes_length (b : List Byte) : (modhexOfBytes b).length = 2 * b.length := by
  simp [modhexOfBytes, unpackNibbles_length]

theorem packNibbles_unpackNibbles (b : List Byte) : packNibbles (unpackNibbles b) = b := by
  induction b with
  | nil => rfl
  | cons x b ih =>
    have hx : (x.extractLsb' 4 4 ++ x.extractLsb' 0 4 : BitVec (4 + 4)) = x := by revert x; decide
    show packNibbles (x.extractLsb' 4 4 :: x.extractLsb' 0 4 :: unpackNibbles b) = x :: b
    rw [packNibbles, ih]
    exact congrArg (· :: b) hx

/-- R10: `unhex` is the inverse of `hex`. -/
theorem unhex_hex (b : List Byte) : unhex (hex b) = some b := by
  have h : nibbles nibbleOfLowerHex (hex b) = some (unpackNibbles b) := nibbles_map nibbleOfLowerHex_hexDigit _
  simp [unhex, hex_length, h, packNibbles_unpackNibbles]

/-- R102: `MhEnc(hex(b))`, the form the pipeline uses. -/
theorem mhEnc_hex (b : List Byte) : mhEnc (hex b) = .ok (modhexOfBytes b) := by
  have h : nibbles nibbleOfHex (hex b) = some (unpackNibbles b) := nibbles_map nibbleOfHex_hexDigit _
  simp [mhEnc, h, modhexOfBytes]

/-- R170: `MhDec` of a modhex rendering is the hex rendering. -/
theorem mhDec_modhexOfBytes (b : List Byte) : mhDec (modhexOfBytes b) = .ok (hex b) := by
  have h : nibbles nibbleOfModhex (modhexOfBytes b) = some (unpackNibbles b) := nibbles_map nibbleOfModhex_modhexLetter _
  simp [mhDec, h, hex]

@[simp] theorem vectorOfList_toList (n : Nat) (l : List Byte) (h : l.length = n) : (vectorOfList n l h).toList = l := rfl

theorem vectorOfList?_toList {n : Nat} (v : Vector Byte n) : vectorOfList? n v.toList = some v := by
  simp [vectorOfList?, vectorOfList, Vector.toList]

theorem mem_iff_lookup (table : List (Byte × Byte)) (ch o : Byte) :
    (ch, o) ∈ table ↔ o ∈ (table.filter fun p => p.1 = ch).map Prod.snd := by simp

theorem hexToModhex_row (ch : Byte) :
    (hexToModhex.filter fun p => p.1 = ch).map Prod.snd = ((nibbleOfHex ch).map modhexLetter).toList := by
  revert ch; decide +kernel

theorem modhexToHex_row (ch : Byte) :
    (modhexToHex.filter fun p => p.1 = ch).map Prod.snd = ((nibbleOfModhex ch).map hexDigit).toList := by
  revert ch; decide +kernel

/-- R100: the spec's table, read as the model's two functions. -/
theorem mem_hexToModhex_iff {ch o : Byte} : (ch, o) ∈ hexToModhex ↔ ∃ n, nibbleOfHex ch = some n ∧ modhexLetter n = o := by
  rw [mem_iff_lookup, hexToModhex_row]; simp

/-- R100, R103: the spec's table the other way. -/
theorem mem_modhexToHex_iff {ch o : Byte} : (ch, o) ∈ modhexToHex ↔ ∃ n, nibbleOfModhex ch = some n ∧ hexDigit n = o := by
  rw [mem_iff_lookup, modhexToHex_row]; simp

theorem modhexOfBytes_eq_modhexText (b : List Byte) : modhexOfBytes b = modhexText b := by
  induction b with
  | nil => rfl
  | cons x b ih =>
    have hx : modhexLetter (x.extractLsb' 4 4) = modhexLetters.getD (x.toNat / 16) 0 ∧
        modhexLetter (x.extractLsb' 0 4) = modhexLetters.getD (x.toNat % 16) 0 := by revert x; decide
    show modhexLetter (x.extractLsb' 4 4) :: modhexLetter (x.extractLsb' 0 4) :: modhexOfBytes b = _
    rw [ih, hx.1, hx.2]; rfl

theorem hex_eq_hexText (b : List Byte) : hex b = hexText b := by
  induction b with
  | nil => rfl
  | cons x b ih =>
    have hx : hexDigit (x.extractLsb' 4 4) = hexDigits.getD (x.toNat / 16) 0 ∧
        hexDigit (x.extractLsb' 0 4) = hexDigits.getD (x.toNat % 16) 0 := by revert x; decide
    show hexDigit (x.extractLsb' 4 4) :: hexDigit (x.extractLsb' 0 4) :: hex b = _
    rw [ih, hx.1, hx.2]; rfl

end Sys2Proof.Machine
end

