-- ==== Sys2Proof/Laws/PerInstr.lean ====
section
/-! SUPPORT. One statement per command about its frame as syntax (30_encoding.md R71): how long its encoding is. -/

namespace Sys2Proof.Laws.FrameLength

/-- R71: the frame of a command is one opcode byte and, per operand, two length bytes and the operand. -/
def Statement (i : Instr) : Prop :=
  (encode i).length = 1 + (i.operands.map fun o => 2 + o.length).sum ∧ (encode i).head? = some i.opcode

theorem mhenc (t : List Byte) : Statement (.mhenc t) := by
  simp [Statement, encode, Instr.operands, encodeOperand, leBytes]; omega
theorem mhdec (t : List Byte) : Statement (.mhdec t) := by
  simp [Statement, encode, Instr.operands, encodeOperand, leBytes]; omega
theorem crc16 (b : List Byte) : Statement (.crc16 b) := by
  simp [Statement, encode, Instr.operands, encodeOperand, leBytes]; omega
theorem aesenc (k p : List Byte) : Statement (.aesenc k p) := by
  simp [Statement, encode, Instr.operands, encodeOperand, leBytes]; omega
theorem gen : Statement .gen := by simp [Statement, encode, Instr.operands]
theorem insert : Statement .insert := by simp [Statement, encode, Instr.operands]
theorem button : Statement .button := by simp [Statement, encode, Instr.operands]
theorem create : Statement .create := by simp [Statement, encode, Instr.operands]
theorem load (t : List Byte) : Statement (.load t) := by
  simp [Statement, encode, Instr.operands, encodeOperand, leBytes]; omega
theorem save : Statement .save := by simp [Statement, encode, Instr.operands]

end Sys2Proof.Laws.FrameLength
end

