-- ==== Sys2Proof/Laws/Record.lean ====
section
/-! SUPPORT. The parts of the record parser, each once: lines, trimmed values and decimal numerals (45_persistence.md
R167, R168, R173). -/

namespace Sys2Proof.Machine

/-! Lines -/

theorem splitLines_ne_nil (t : List Byte) : splitLines t ≠ [] := by
  cases t with
  | nil => simp [splitLines]
  | cons ch t =>
    rw [splitLines]
    split
    · simp
    · split <;> simp

/-- R177: a text without LF is one line. -/
theorem splitLines_of_noLf {l : List Byte} (h : lineFeed ∉ l) : splitLines l = [l] := by
  induction l with
  | nil => rfl
  | cons ch l ih =>
    simp only [List.mem_cons, not_or] at h
    rw [splitLines, if_neg (fun e => h.1 e.symm), ih h.2]

/-- R177: a line ends at its LF. -/
theorem splitLines_line {l : List Byte} (h : lineFeed ∉ l) (t : List Byte) :
    splitLines (l ++ lineFeed :: t) = l :: splitLines t := by
  induction l with
  | nil => simp [splitLines]
  | cons ch l ih =>
    simp only [List.mem_cons, not_or] at h
    rw [List.cons_append, splitLines, if_neg (fun e => h.1 e.symm), ih h.2]

/-- R177: a text is its first line, or its first line, an LF and the text of the other lines. -/
theorem splitLines_cases {t l : List Byte} {ls : List (List Byte)} (h : splitLines t = l :: ls) :
    lineFeed ∉ l ∧ ((ls = [] ∧ t = l) ∨ ∃ t', t = l ++ lineFeed :: t' ∧ splitLines t' = ls) := by
  induction t generalizing l ls with
  | nil =>
    simp only [splitLines, List.cons.injEq] at h
    obtain ⟨rfl, rfl⟩ := h
    simp
  | cons ch t ih =>
    rw [splitLines] at h
    split at h
    · next hc =>
      obtain ⟨rfl, rfl⟩ := List.cons.inj h
      exact ⟨by simp, .inr ⟨t, by simp [hc], rfl⟩⟩
    · next hc =>
      split at h
      · next hn => exact absurd hn (splitLines_ne_nil t)
      · next line lines hl =>
        obtain ⟨rfl, rfl⟩ := List.cons.inj h
        obtain ⟨hm, hcase⟩ := ih hl
        refine ⟨by simpa using ⟨fun e => hc e.symm, hm⟩, ?_⟩
        rcases hcase with ⟨rfl, rfl⟩ | ⟨t', rfl, rfl⟩
        · exact .inl ⟨rfl, rfl⟩
        · exact .inr ⟨t', rfl, rfl⟩

/-! Values -/

theorem isBlank_iff (ch : Byte) : isBlank ch = true ↔ ch = 0x20 ∨ ch = 0x09 := by simp [isBlank]

theorem dropWhile_blanks {a v : List Byte} (ha : IsBlanks a) : (a ++ v).dropWhile isBlank = v.dropWhile isBlank := by
  induction a with
  | nil => rfl
  | cons ch a ih =>
    have hc : isBlank ch = true := (isBlank_iff ch).2 (ha ch (by simp))
    rw [List.cons_append, List.dropWhile_cons_of_pos hc]
    exact ih fun x hx => ha x (by simp [hx])

theorem dropWhile_self {v : List Byte} (h : ∀ ch ∈ v, isBlank ch = false) : v.dropWhile isBlank = v := by
  cases v with
  | nil => rfl
  | cons ch v => exact List.dropWhile_cons_of_neg (by simp [h ch])

/-- R168: trimming takes the blanks off both sides of a value that has none. -/
theorem trim_blanks {a v b : List Byte} (ha : IsBlanks a) (hb : IsBlanks b) (hv : ∀ ch ∈ v, isBlank ch = false)
    (hne : v ≠ []) : trim (a ++ v ++ b) = v := by
  obtain ⟨ch, v', rfl⟩ := List.exists_cons_of_ne_nil hne
  have h1 : (a ++ (ch :: v') ++ b).dropWhile isBlank = (ch :: v') ++ b := by
    rw [List.append_assoc, dropWhile_blanks ha]
    exact List.dropWhile_cons_of_neg (by simp [hv ch])
  have hb' : IsBlanks b.reverse := fun x hx => hb x (List.mem_reverse.1 hx)
  rw [trim, h1, List.reverse_append, dropWhile_blanks hb',
    dropWhile_self fun x hx => hv x (List.mem_reverse.1 hx), List.reverse_reverse]

/-- R168: a text is its trimmed value with blanks on both sides. -/
theorem trim_decompose (v : List Byte) : ∃ a b, IsBlanks a ∧ IsBlanks b ∧ v = a ++ trim v ++ b := by
  have hw : ∀ w : List Byte, IsBlanks (w.takeWhile isBlank) := fun w ch hch =>
    (isBlank_iff ch).1 (List.mem_takeWhile_imp hch)
  refine ⟨v.takeWhile isBlank, ((v.dropWhile isBlank).reverse.takeWhile isBlank).reverse, hw v, ?_, ?_⟩
  · exact fun ch hch => hw _ ch (List.mem_reverse.1 hch)
  · rw [trim, List.append_assoc, ← List.reverse_append, List.takeWhile_append_dropWhile, List.reverse_reverse,
      List.takeWhile_append_dropWhile]

/-- R177 `Field`: what a field line must look like. -/
theorem fieldValue_some {label line v : List Byte} (h : fieldValue label line = some v) :
    ∃ rest, line = label ++ rest ∧ v = trim rest := by
  simp only [fieldValue] at h
  split at h
  · next hp =>
    obtain ⟨rest, rfl⟩ := List.isPrefixOf_iff_prefix.1 hp
    exact ⟨rest, rfl, by simpa using h.symm⟩
  · cases h

theorem fieldValue_label (label rest : List Byte) : fieldValue label (label ++ rest) = some (trim rest) := by
  simp [fieldValue]

/-! Numerals -/

theorem digitValue_some {ch : Byte} {d : Nat} (h : digitValue ch = some d) :
    0x30 ≤ ch.toNat ∧ ch.toNat ≤ 0x39 ∧ d = ch.toNat - 0x30 := by
  simp only [digitValue] at h
  split at h
  · next hc =>
    simp only [BitVec.le_def] at hc
    exact ⟨hc.1, hc.2, (Option.some.inj h).symm⟩
  · cases h

theorem digitValue_digit {ch : Byte} (h : 0x30 ≤ ch.toNat ∧ ch.toNat ≤ 0x39) :
    digitValue ch = some (ch.toNat - 0x30) := by
  simp [digitValue, BitVec.le_def, h.1, h.2]

/-- R173: the parser's value of a numeral is the numeral's. -/
theorem decimalValue_iff {acc n : Nat} {v : List Byte} :
    decimalValue acc v = some n ↔ IsDigits v ∧ v.foldl (fun n ch => 10 * n + (ch.toNat - 0x30)) acc = n := by
  induction v generalizing acc with
  | nil => simp [decimalValue, IsDigits]
  | cons ch v ih =>
    rw [decimalValue]
    constructor
    · intro h
      obtain ⟨d, hd, hv⟩ := Option.bind_eq_some_iff.1 h
      obtain ⟨h1, h2, rfl⟩ := digitValue_some hd
      obtain ⟨h3, h4⟩ := ih.1 hv
      refine ⟨fun x hx => ?_, h4⟩
      rcases List.mem_cons.1 hx with rfl | hx
      · exact ⟨h1, h2⟩
      · exact h3 x hx
    · rintro ⟨h1, h2⟩
      have hd := digitValue_digit (h1 ch (by simp))
      rw [hd]
      exact ih.2 ⟨fun x hx => h1 x (by simp [hx]), h2⟩

/-! The record -/

/-- R165 to R168: the grammar's fixed bytes are the model's header, labels and LF. -/
theorem recordText_eq (pub key sec ctr : List Byte) (a b : Fin 4 → List Byte) (last : List Byte) :
    recordText pub key sec ctr a b last =
      headerLine ++ lineFeed :: (pubidLabel ++ (a 0 ++ pub ++ b 0) ++ lineFeed :: (keyLabel ++ (a 1 ++ key ++ b 1) ++
        lineFeed :: (secidLabel ++ (a 2 ++ sec ++ b 2) ++ lineFeed :: (counterLabel ++ (a 3 ++ ctr ++ b 3) ++ last)))) := by
  have h0 : headerCodes = headerLine := by decide
  have h1 : pubidCodes = pubidLabel := by decide
  have h2 : keyCodes = keyLabel := by decide
  have h3 : secidCodes = secidLabel := by decide
  have h4 : counterCodes = counterLabel := by decide
  have h5 : ([0x0A] : List Byte) = [lineFeed] := rfl
  simp only [recordText, h0, h1, h2, h3, h4, h5, List.append_assoc, List.cons_append, List.nil_append]

end Sys2Proof.Machine
end

