-- ==== Sys2Proof/Tests/Slice0.lean ====
section
/-! SUPPORT. Our own tests: the WellFormed smoke tests, one written frame per command, at most two small runs per
command with results from spec/95_test_vectors.md, and for every statement a state and operands that meet its
hypotheses. -/

namespace Sys2Proof.Tests

open Sys2Proof Sys2Proof.Machine

/-! WellFormed: an operand of 65536 bytes fits no length field, in each place an operand can stand. -/

def tooLong : List Byte := List.replicate 65536 0

theorem length_tooLong : tooLong.length = 65536 := List.length_replicate

theorem not_fits {i : Instr} (h : tooLong ∈ i.operands) : ¬ i.WellFormed := fun hw => by
  have := hw tooLong h
  rw [length_tooLong] at this
  exact absurd this (by decide)

theorem test_wellFormed_accepts_longest : (Instr.mhenc (List.replicate 65535 0)).WellFormed := fun o ho => by
  rw [List.mem_singleton.1 ho, List.length_replicate]
theorem test_wellFormed_refuses_mhenc : ¬ (Instr.mhenc tooLong).WellFormed := not_fits (List.mem_singleton.2 rfl)
theorem test_wellFormed_refuses_mhdec : ¬ (Instr.mhdec tooLong).WellFormed := not_fits (List.mem_singleton.2 rfl)
theorem test_wellFormed_refuses_crc16 : ¬ (Instr.crc16 tooLong).WellFormed := not_fits (List.mem_singleton.2 rfl)
theorem test_wellFormed_refuses_aesenc_key : ¬ (Instr.aesenc tooLong []).WellFormed := not_fits (List.mem_cons_self ..)
theorem test_wellFormed_refuses_aesenc_block : ¬ (Instr.aesenc [] tooLong).WellFormed :=
  not_fits (List.mem_cons_of_mem _ (List.mem_singleton.2 rfl))
theorem test_wellFormed_refuses_load : ¬ (Instr.load tooLong).WellFormed := not_fits (List.mem_singleton.2 rfl)

/-! Decoding: one frame per command, its opcode byte written bit by bit from `0000oooo` (R73) and R74. -/

theorem test_decode_mhenc : decode [0b00000001, 0x02, 0x00, 0x30, 0x66] = .ok (.mhenc [0x30, 0x66]) := by decide
theorem test_decode_mhdec : decode [0b00000010, 0x01, 0x00, 0x76] = .ok (.mhdec [0x76]) := by decide
theorem test_decode_crc16 : decode [0b00000011, 0x00, 0x00] = .ok (.crc16 []) := by decide
theorem test_decode_aesenc : decode [0b00000100, 0x01, 0x00, 0xAA, 0x02, 0x00, 0xBB, 0xCC] =
    .ok (.aesenc [0xAA] [0xBB, 0xCC]) := by decide
theorem test_decode_gen : decode [0b00000101] = .ok .gen := by decide
theorem test_decode_insert : decode [0b00000110] = .ok .insert := by decide
theorem test_decode_button : decode [0b00000111] = .ok .button := by decide
theorem test_decode_create : decode [0b00001000] = .ok .create := by decide
theorem test_decode_load : decode [0b00001001, 0x01, 0x00, 0x59] = .ok (.load [0x59]) := by decide
theorem test_decode_save : decode [0b00001010] = .ok .save := by decide

/-- R72: the length field is `LEN1 low + 256 * LEN1 high`: 0x0100 announces 256 bytes. -/
theorem test_decode_length_high_byte :
    decode (0x02 :: 0x00 :: 0x01 :: List.replicate 256 0x63) = .ok (.mhdec (List.replicate 256 0x63)) := by decide +kernel

theorem test_encode_aesenc : encode (.aesenc [0xAA] [0xBB, 0xCC]) = [0x04, 0x01, 0x00, 0xAA, 0x02, 0x00, 0xBB, 0xCC] := by
  decide

/-- T91, T94, T95, T96, T97, T98. -/
theorem test_decode_rejects :
    decode [0x00] = .error (.illegalOpcode 0) ∧ decode [0x01, 0x02, 0x00, 0x30] = .error .operandCut ∧
    decode [0x01, 0x02] = .error .lengthCut ∧ decode [0x06, 0x00] = .error .bytesRemain ∧
    decode [0x01, 0x01, 0x00, 0x30, 0x30] = .error .bytesRemain ∧
    decode ([0x04, 0x10, 0x00] ++ List.replicate 16 0) = .error .lengthCut := by decide +kernel

/-- The table's word of each row, one byte long, is read with operands of no bytes. -/
theorem test_table_words :
    [1, 2, 3, 4, 5, 6, 7, 8, 9, 10].map (decodeTableWord 8) =
      [some (.mhenc []), some (.mhdec []), some (.crc16 []), some (.aesenc [] []), some .gen, some .insert, some .button,
       some .create, some (.load []), some .save] ∧ decodeTableWord 8 0 = none ∧ decodeTableWord 8 11 = none := by decide

/-! Small states and what a command answers -/

/-- The zero identity of the known vector (R147). -/
def zeroId : Identity :=
  ⟨#v[0, 0, 0, 0, 0, 0], #v[0, 0, 0, 0, 0, 0, 0, 0, 0, 0, 0, 0, 0, 0, 0, 0], #v[0, 0, 0, 0, 0, 0]⟩

def zeroToken : Token := ⟨zeroId, 1, 0, 0, 0⟩

/-- A block that holds a token, with the port answers of T62. -/
def holding (k : Token) : State :=
  { State.reset with held := .token k, ports := ⟨[0x1234], [], [0x01000005], 0⟩ }

def halted : State := { State.reset with halt := true, obuf := [3, 2, 0, 0] }

/-- The host issues one frame. -/
def issuing (s : State) (f : List Byte) : State := { s with host := [.command f] }

def after : Host.Outcome State Fault Refusal → Option State
  | .next t => some t
  | .fault _ => none
  | .refused _ => none

def response (o : Host.Outcome State Fault Refusal) : Option (List Byte) := (after o).map State.obuf

def registers (o : Host.Outcome State Fault Refusal) : Option Held := (after o).map State.held

/-- Record V of 95_test_vectors.md, with a counter value. -/
def recV (ctr : List Byte) : List Byte := recordV (copies 12 'c') (copies 32 '0') (copies 12 '0') ctr

/-- T3, T7. -/
theorem test_mhenc :
    response (exec (.mhenc [0x30, 0x30, 0x66, 0x46]) State.reset) = some [0, 0, 4, 0, 0x63, 0x63, 0x76, 0x76] ∧
    response (exec (.mhenc [0x30, 0x67]) State.reset) = some [1, 0, 0, 0] := by decide

/-- T14, T18. -/
theorem test_mhdec :
    response (exec (.mhdec [0x76, 0x76, 0x63, 0x63]) State.reset) = some [0, 0, 4, 0, 0x66, 0x66, 0x30, 0x30] ∧
    response (exec (.mhdec [0x43]) State.reset) = some [1, 0, 0, 0] := by decide

/-- T21, T31. -/
theorem test_crc16 :
    response (exec (.crc16 [0, 0, 0, 0, 0, 0, 1, 0, 0, 0, 0, 0, 0, 0]) State.reset) = some [0, 0, 2, 0, 0xD5, 0x28] ∧
    response (exec (.crc16 []) State.reset) = some [2, 0, 0, 0] := by decide +kernel

/-- T41. -/
theorem test_aesenc :
    response (exec (.aesenc
      [0x2b, 0x7e, 0x15, 0x16, 0x28, 0xae, 0xd2, 0xa6, 0xab, 0xf7, 0x15, 0x88, 0x09, 0xcf, 0x4f, 0x3c]
      [0x32, 0x43, 0xf6, 0xa8, 0x88, 0x5a, 0x30, 0x8d, 0x31, 0x31, 0x98, 0xa2, 0xe0, 0x37, 0x07, 0x34]) State.reset) =
    some [0, 0, 16, 0, 0x39, 0x25, 0x84, 0x1d, 0x02, 0xdc, 0x09, 0xfb, 0xdc, 0x11, 0x85, 0x97, 0x19, 0x6a, 0x0b, 0x32] := by
  decide +kernel

/-- T47, T48, T49: the key is checked first. -/
theorem test_aesenc_lengths :
    response (exec (.aesenc (List.replicate 15 0) (List.replicate 17 0)) State.reset) = some [3, 2, 0, 0] ∧
    response (exec (.aesenc (List.replicate 16 0) (List.replicate 17 0)) (holding zeroToken)) = some [5, 3, 0, 0] := by decide

/-- P1, step 2. -/
theorem test_gen_known_vector :
    response (exec .gen (holding zeroToken)) = some ([0, 1, 44, 0] ++ copies 12 'c' ++ ascii
      ['u', 'c', 'u', 'g', 'v', 'f', 'k', 'd', 'r', 'v', 'd', 'c', 'e', 'f', 'l', 'i', 'r', 'r', 'g', 'b', 'n', 't', 'u',
       'j', 'c', 'v', 'n', 'b', 'l', 'c', 'h', 'r']) := by decide +kernel

/-- T66. -/
theorem test_gen_no_token : response (exec .gen State.reset) = some [3, 2, 0, 0] := by decide

/-- T60. -/
theorem test_insert_wraps :
    registers (exec .insert { holding ⟨zeroId, 0xFFFF, 7, 0, 0⟩ with ports := ⟨[0xBEEF], [], [0x123456789], 0⟩ }) =
      some (.token ⟨zeroId, 0, 0, 0x456789, 0xBEEF⟩) := by decide

/-- T61: the tick count 2^24 is taken as 0. -/
theorem test_insert_masks_ticks :
    registers (exec .insert { holding ⟨zeroId, 5, 200, 9, 9⟩ with ports := ⟨[0], [], [0x1000000], 0⟩ }) =
      some (.token ⟨zeroId, 6, 0, 0, 0⟩) := by decide

/-- T62: the registers, the ports and the text. -/
theorem test_button :
    after (exec .button (holding zeroToken)) = some { State.reset with
      held := .token ⟨zeroId, 1, 1, 5, 0x1234⟩, ports := ⟨[], [], [], 2⟩,
      obuf := [0, 1, 44, 0] ++ copies 13 'c' ++ ascii
        ['h', 'l', 't', 't', 't', 'n', 'f', 't', 'j', 'e', 'c', 'l', 'h', 'e', 'b', 'l', 'f', 'n', 'u', 'f', 'u', 'b', 'u',
         'l', 'e', 'k', 'k', 'k', 'k', 'i', 'c'] } := by decide +kernel

/-- T63. -/
theorem test_button_wraps :
    registers (exec .button (holding ⟨zeroId, 9, 255, 0, 0⟩)) = some (.token ⟨zeroId, 9, 0, 5, 0x1234⟩) := by decide +kernel

/-- T65: the identity bytes in the order public id, key, secret id. -/
theorem test_create :
    registers (exec .create { State.reset with ports := ⟨[0],
      [0x01, 0x02, 0x03, 0x04, 0x05, 0x06, 0x00, 0x01, 0x02, 0x03, 0x04, 0x05, 0x06, 0x07, 0x08, 0x09, 0x0a, 0x0b, 0x0c,
       0x0d, 0x0e, 0x0f, 0xa1, 0xb2, 0xc3, 0xd4, 0xe5, 0xf6], [0], 0⟩ }) =
    some (.token ⟨⟨#v[0x01, 0x02, 0x03, 0x04, 0x05, 0x06],
      #v[0x00, 0x01, 0x02, 0x03, 0x04, 0x05, 0x06, 0x07, 0x08, 0x09, 0x0a, 0x0b, 0x0c, 0x0d, 0x0e, 0x0f],
      #v[0xa1, 0xb2, 0xc3, 0xd4, 0xe5, 0xf6]⟩, 1, 0, 0, 0⟩) := by decide +kernel

/-- T74. -/
theorem test_load_wraps :
    registers (exec (.load (recV (ascii ['6', '5', '5', '3', '5']))) { State.reset with ports := ⟨[7], [], [100], 0⟩ }) =
      some (.token ⟨zeroId, 0, 0, 0x64, 7⟩) := by decide +kernel

/-- T80: STATUS 4 and RLEN 0x82, and the operand back. -/
theorem test_load_rejects :
    response (exec (.load (recV (ascii ['7', '0', '0', '0', '0']))) State.reset) =
      some ([4, 0, 0x82, 0] ++ recV (ascii ['7', '0', '0', '0', '0'])) := by decide +kernel

/-- P1, step 5. -/
theorem test_save : response (exec .save (holding zeroToken)) = some ([0, 1, 0x7E, 0] ++ recV (ascii ['1'])) := by
  decide +kernel

/-- T99, T100: a frame through the whole step, and the halted block. -/
theorem test_step_halts :
    after (step (issuing State.reset [0x07])) = some { halted with ibuf := [0x07] } ∧
    response (step (issuing halted [0xFF])) = some [3, 2, 0, 0] := by decide

/-- The host's reset is the only way out of HALT. -/
theorem test_step_reset : after (step { halted with host := [.reset] }) = some State.reset := by decide

/-- withFetchWord makes the very next step run the table's instruction. -/
theorem test_withFetchWord :
    after (step (State.reset.withFetchWord 8 0x07)) = after (exec .button { State.reset with ibuf := [0x07] }) := by decide

/-! For each statement with hypotheses, a state and operands that meet them, at the boundary of each clause -/

theorem witness_ResetClearsTheBlock : ∃ s : State, ∃ rest, s.host = .reset :: rest :=
  ⟨{ halted with host := [.reset] }, [], rfl⟩

theorem witness_ReadingAndWaitingChangeNothing :
    (∃ s : State, ∃ rest, s.host = .readResponse :: rest) ∧ ∃ s : State, s.host = [] :=
  ⟨⟨{ halted with host := [.readResponse] }, [], rfl⟩, halted, rfl⟩

theorem witness_StepRunsDecodedCommand :
    ∃ (s : State) (f : List Byte) (rest : List HostMove) (i : Instr), s.host = .command f :: rest ∧ decode f = .ok i :=
  ⟨issuing (holding zeroToken) [0x06], [0x06], [], .insert, rfl, by decide⟩

theorem witness_EveryCommandAnswers : ∃ (s : State) (f : List Byte) (rest : List HostMove), s.host = .command f :: rest :=
  ⟨issuing State.reset [], [], [], rfl⟩

theorem reset_inv : State.reset.Inv := ⟨.inl rfl, fun h => nomatch h⟩

theorem halted_inv : halted.Inv :=
  ⟨.inr ⟨3, [], by decide, by decide, by decide, by decide⟩, fun _ => .inl (by decide)⟩

theorem witness_StepKeepsInvariant :
    (∃ s t : State, s.Inv ∧ step s = .next t ∧ t.halt = true) ∧ ∃ s t : State, s.Inv ∧ s.halt = true ∧ step s = .next t :=
  ⟨⟨issuing State.reset [0x07], { halted with ibuf := [0x07] }, ⟨.inl rfl, fun h => nomatch h⟩, rfl, rfl⟩,
    halted, halted, halted_inv, rfl, rfl⟩

theorem witness_ValidAndHaltAreSticky :
    ∃ s t : State, step s = .next t ∧ (∀ rest, s.host ≠ .reset :: rest) ∧ s.valid = true ∧ s.halt = true :=
  ⟨{ holding zeroToken with halt := true }, _, rfl, (fun _ h => nomatch h), rfl, rfl⟩

theorem witness_DecodeEncodeAgree :
    (∃ i : Instr, i.WellFormed) ∧ ∃ (f : List Byte) (i : Instr), decode f = .ok i :=
  ⟨⟨_, test_wellFormed_accepts_longest⟩, _, _, test_decode_aesenc⟩

theorem witness_FrameLayout : ∃ d : List Byte, d.length = 65535 := ⟨List.replicate 65535 0, List.length_replicate⟩

theorem witness_IllegalOpcodesAreInvalidInput :
    ((0x10 : Byte).toNat / 16 ≠ 0) ∧ ((0x00 : Byte).toNat % 16 = 0) ∧ (0xB ≤ (0x0B : Byte).toNat % 16) ∧
    (0xB ≤ (0x0F : Byte).toNat % 16) ∧ State.reset.halt = false ∧
    (issuing State.reset [0x10]).host = .command (0x10 :: []) :: [] := by decide

theorem witness_MalformedFramesAreInvalidInput :
    (∀ i : Instr, encode i ≠ [0x0B]) ∧ (issuing State.reset [0x0B]).host = .command [0x0B] :: [] ∧
    Instr.gen.WellFormed ∧ Instr.save.WellFormed ∧ ([0x00] : List Byte) ≠ [] ∧ 0 < (encode .gen).length := by
  refine ⟨fun i => ?_, by decide, by decide, by decide, by decide, by decide⟩
  cases i <;> simp [encode, Instr.opcode]

theorem witness_HaltCheckComesFirst :
    ∃ s : State, s.halt = true ∧ ∃ f rest, s.host = .command f :: rest :=
  ⟨issuing halted [0xFF], rfl, _, _, rfl⟩

/-- A command on a state, with the response it leaves: STATUS n and result r. -/
def Ends (i : Instr) (s : State) (n : Nat) (r : List Byte) : Prop :=
  ∃ t, exec i s = .next t ∧ t.obuf = answer n t.sr r

theorem witness_CallerErrorsDoNotMutate :
    Ends (.mhenc [0x67]) State.reset 1 [] ∧ Ends (.crc16 []) State.reset 2 [] ∧
    Ends (.load []) (holding zeroToken) 4 [] :=
  ⟨⟨_, rfl, by decide⟩, ⟨_, rfl, by decide⟩, ⟨_, rfl, by decide⟩⟩

theorem witness_FatalErrorsHalt :
    Ends .gen State.reset 3 [] ∧ Ends (.aesenc (List.replicate 16 0) []) (holding zeroToken) 5 [] :=
  ⟨⟨_, rfl, by decide⟩, ⟨_, rfl, by decide⟩⟩

theorem witness_CallerErrorsDoNotMutate_frame :
    ∃ t : State, step (State.reset.withFetchWord 8 0x0B) = .next t ∧ t.obuf = answer 1 t.sr [] :=
  ⟨_, rfl, by decide⟩

theorem witness_TokenCommandsNeedAToken :
    ∃ (i : Instr) (s : State), (i = .gen ∨ i = .insert ∨ i = .button ∨ i = .save) ∧ s.halt = false ∧ s.valid = false :=
  ⟨.save, State.reset, by simp, rfl, rfl⟩

theorem witness_ErrorsByCommand : ∃ s t : State, s.halt = false ∧ exec .save s = .next t :=
  ⟨State.reset, _, rfl, rfl⟩

theorem witness_ErrorInformation :
    Ends (.load [0x59]) State.reset 4 [0x59] ∧ Ends (.mhdec [0x61]) State.reset 1 [] :=
  ⟨⟨_, rfl, by decide⟩, ⟨_, rfl, by decide⟩⟩

theorem witness_ResultLengths :
    Ends (.mhenc []) State.reset 0 [] ∧ Ends .insert (holding zeroToken) 0 [] ∧
    Ends .save (holding zeroToken) 0 (recV (ascii ['1'])) :=
  ⟨⟨_, rfl, by decide⟩, ⟨_, rfl, by decide⟩, ⟨_, rfl, by decide +kernel⟩⟩

theorem witness_MhencSubstitutes :
    State.reset.halt = false ∧ MapsBy hexToModhex [0x39, 0x46] [0x6B, 0x76] ∧ MapsBy hexToModhex [] [] ∧
    HasCharOutside hexToModhex [0x30, 0x67] ∧ HasCharOutside hexToModhex [0x2F] ∧ HasCharOutside hexToModhex [0x80] := by
  refine ⟨rfl, .cons (by decide) (.cons (by decide) .nil), .nil, ⟨0x67, by decide, by decide⟩, ⟨0x2F, by decide, by decide⟩,
    ⟨0x80, by decide, by decide⟩⟩

theorem witness_MhdecSubstitutes :
    State.reset.halt = false ∧ MapsBy modhexToHex [0x63, 0x76] [0x30, 0x66] ∧ MapsBy modhexToHex [] [] ∧
    HasCharOutside modhexToHex [0x63, 0x61] ∧ HasCharOutside modhexToHex [0x43] := by
  refine ⟨rfl, .cons (by decide) (.cons (by decide) .nil), .nil, ⟨0x61, by decide, by decide⟩, ⟨0x43, by decide, by decide⟩⟩

theorem witness_ModhexRoundTrips : mhEnc [0x41] = .ok [0x6C] ∧ mhDec [0x6C] = .ok [0x61] := by decide

theorem witness_MhEncProperties : mhEnc [0x41] = .ok [0x6C] ∧ mhEnc [0x61] = .ok [0x6C] := by decide

theorem witness_Crc16Checksum :
    State.reset.halt = false ∧ (List.replicate 14 (0 : Byte)).length = 14 ∧ (List.replicate 13 (0 : Byte)).length ≠ 14 ∧
    (List.replicate 15 (0 : Byte)).length ≠ 14 := by decide

theorem witness_Crc16Affine : ∃ (a : List Byte) (i j : Nat), a.length = 14 ∧ i < 14 ∧ j < 8 :=
  ⟨List.replicate 14 0, 13, 7, by decide, by decide, by decide⟩

theorem witness_AesencEncryptsOrHalts :
    State.reset.halt = false ∧ (List.replicate 16 (0 : Byte)).length = 16 ∧ (List.replicate 15 (0 : Byte)).length ≠ 16 ∧
    (List.replicate 17 (0 : Byte)).length ≠ 16 := by decide

theorem witness_AesRoundStructure : ∃ k p : List Byte, k.length = 16 ∧ p.length = 16 :=
  ⟨List.replicate 16 0, List.replicate 16 0, by decide, by decide⟩

theorem witness_AesStepsByIndex : ∃ s rk : List Byte, s.length = 16 ∧ rk.length = 16 := witness_AesRoundStructure

theorem witness_KeyScheduleRecurrence : ∃ k : List Byte, k.length = 16 := ⟨List.replicate 16 0, by decide⟩

theorem witness_AesIsABijection : ∃ k p q c : List Byte, k.length = 16 ∧ p.length = 16 ∧ q.length = 16 ∧
    aes128Enc k p = aes128Enc k q ∧ c.length = 16 :=
  ⟨List.replicate 16 0, List.replicate 16 0, List.replicate 16 0, List.replicate 16 0, by decide, by decide, by decide,
    rfl, by decide⟩

/-- A block that holds a token and one that holds none, neither halted. -/
theorem witness_GenAnswersOtp :
    (∃ s : State, ∃ k, s.halt = false ∧ s.held = .token k) ∧ ∃ s : State, s.halt = false ∧ s.held = .noToken :=
  ⟨⟨holding zeroToken, zeroToken, rfl, rfl⟩, State.reset, rfl, rfl⟩

theorem witness_InsertAdvancesCounter :
    (∃ s : State, ∃ k, s.halt = false ∧ s.held = .token k ∧ k.ctr = 65535) ∧
    ∃ s : State, s.halt = false ∧ s.held = .noToken :=
  ⟨⟨holding ⟨zeroId, 65535, 0, 0, 0⟩, _, rfl, rfl, rfl⟩, State.reset, rfl, rfl⟩

theorem witness_ButtonAdvancesSession :
    (∃ s : State, ∃ k, s.halt = false ∧ s.held = .token k ∧ k.sctr = 255) ∧
    ∃ s : State, s.halt = false ∧ s.held = .noToken :=
  ⟨⟨holding ⟨zeroId, 0, 255, 0, 0⟩, _, rfl, rfl, rfl⟩, State.reset, rfl, rfl⟩

theorem witness_SaveAnswersRecord :
    (∃ s : State, ∃ k, s.halt = false ∧ s.held = .token k ∧ k.ctr = 0) ∧ ∃ s : State, s.halt = false ∧ s.held = .noToken :=
  ⟨⟨holding ⟨zeroId, 0, 0, 0, 0⟩, _, rfl, rfl, rfl⟩, State.reset, rfl, rfl⟩

theorem witness_KnownVector : ∃ k : Token, k.id.pubid.toList = List.replicate 6 0 ∧ k.id.key.toList = List.replicate 16 0 ∧
    k.id.secid.toList = List.replicate 6 0 ∧ k.ctr = 1 ∧ k.sctr = 0 ∧ k.tmr = 0 ∧ k.rnd = 0 :=
  ⟨zeroToken, by decide⟩

theorem generate_zeroToken : ∃ text, generate zeroToken = .ok text := by
  have h : (generate zeroToken).isOk = true := by decide +kernel
  cases hg : generate zeroToken with
  | ok text => exact ⟨text, rfl⟩
  | error e => rw [hg] at h; cases h

theorem witness_OtpTextDeterminesPayload :
    ∃ (k l : Token) (text : List Byte), k.id.key = l.id.key ∧ generate k = .ok text ∧ generate l = .ok text := by
  obtain ⟨text, h⟩ := generate_zeroToken
  exact ⟨zeroToken, zeroToken, text, rfl, h, h⟩

theorem witness_PortReads :
    (∃ (k : Nat) (v : List Byte), v.length = k) ∧ ∃ (k : Nat) (v : List Byte), v.length < k :=
  ⟨⟨0, [], rfl⟩, 1, [], by decide⟩

theorem witness_CreateDrawsIdentity :
    ∃ (s : State) (pub : Vector Byte 6) (key : Vector Byte 16) (sec : Vector Byte 6) (p1 p2 p3 p4 p5 : Ports)
      (r : Word16) (c : Nat), s.halt = false ∧ s.ports.drawBytes 6 = (pub, p1) ∧ p1.drawBytes 16 = (key, p2) ∧
      p2.drawBytes 6 = (sec, p3) ∧ p3.drawU16 = (r, p4) ∧ p4.clockTicks = (c, p5) :=
  ⟨holding zeroToken, _, _, _, _, _, _, _, _, _, _, rfl, rfl, rfl, rfl, rfl, rfl⟩

theorem witness_EveryDrawIsPossible : ∃ (s : State) (k : Token), s.halt = false ∧ s.held = .token k :=
  ⟨holding zeroToken, zeroToken, rfl, rfl⟩

theorem witness_PortReadCounts :
    Ends .insert (holding zeroToken) 0 [] ∧ Ends .create State.reset 0 [] ∧ Ends .gen State.reset 3 [] :=
  ⟨⟨_, rfl, by decide⟩, ⟨_, rfl, by rfl⟩, ⟨_, rfl, by decide⟩⟩

theorem witness_OnlyTransitionsChangeTheToken : ∃ (i : Instr) (s t : State), exec i s = .next t ∧ s.valid = true :=
  ⟨.save, holding zeroToken, _, rfl, rfl⟩

theorem witness_IdentityIsImmutable :
    ∃ (i : Instr) (s t : State) (k l : Token), exec i s = .next t ∧ s.held = .token k ∧ t.held = .token l ∧
      i ≠ .create ∧ ∀ r, i ≠ .load r :=
  ⟨.insert, holding zeroToken, _, zeroToken, _, rfl, rfl, rfl, by decide, fun _ h => nomatch h⟩

theorem witness_CounterWrapsAreSilent :
    ∃ (s : State) (k : Token), s.halt = false ∧ s.held = .token k ∧ k.ctr = 65535 ∧ k.sctr = 255 :=
  ⟨holding ⟨zeroId, 65535, 255, 0, 0⟩, _, rfl, rfl, rfl, rfl⟩

theorem answers (i : Instr) (s : State) : ∃ t, exec i s = .next t := by
  rcases exec_cases i s with ⟨_, h⟩ | ⟨_, h⟩ <;> exact ⟨_, h⟩

theorem witness_ConsecutivePressesDiffer :
    ∃ (s t u : State) (p : Ports) (f : List Byte) (h : List HostMove), s.halt = false ∧ s.valid = true ∧
      exec .button s = .next t ∧ exec .button { t with ports := p, ibuf := f, host := h } = .next u := by
  obtain ⟨t, ht⟩ := answers .button (holding zeroToken)
  obtain ⟨u, hu⟩ := answers .button { t with ports := ⟨[0x1234], [], [0x01000005], 0⟩, ibuf := [0x07], host := [] }
  exact ⟨holding zeroToken, t, u, _, _, _, rfl, rfl, ht, hu⟩

theorem witness_GenRepeats :
    (∃ s t : State, s.halt = false ∧ s.valid = true ∧ exec .gen s = .next t) ∧
    ∃ s t : State, s.halt = false ∧ s.valid = true ∧ exec .button s = .next t :=
  ⟨⟨holding zeroToken, _, rfl, rfl, rfl⟩, holding zeroToken, _, rfl, rfl, rfl⟩

theorem witness_GenRepeats_between :
    ∃ (i : Instr) (s t u : State), exec i s = .next t ∧ t.held = s.held ∧ t.halt = false ∧ exec .gen s = .next u :=
  ⟨.save, holding zeroToken, _, _, rfl, rfl, rfl, rfl⟩

theorem parse_recV_one : parse (recV (ascii ['1'])) = .ok (zeroId, 1) := by decide +kernel

theorem witness_ParseAcceptsExactlyTheGrammar :
    (∃ (t : List Byte) (id : Identity) (ctr : Word16), parse t = .ok (id, ctr)) ∧ ∃ t e, parse t = .error e :=
  ⟨⟨_, _, _, parse_recV_one⟩, [], .formatError [], by decide⟩

theorem witness_RecordRoundTrip_commands : ∃ (s : State) (k : Token), s.halt = false ∧ s.held = .token k ∧ k.ctr = 65535 :=
  ⟨holding ⟨zeroId, 65535, 0, 0, 0⟩, _, rfl, rfl, rfl⟩

theorem witness_RecordRoundTrip :
    ∃ (t : List Byte) (id : Identity) (ctr : Word16), parse t = .ok (id, ctr) ∧ format id ctr = t :=
  ⟨_, _, _, parse_recV_one, by decide +kernel⟩

theorem witness_LoadRestoresOrRejects :
    (∃ (s : State) (t : List Byte) (id : Identity) (ctr : Word16), s.halt = false ∧ parse t = .ok (id, ctr)) ∧
    ∃ (s : State) (t : List Byte), s.halt = false ∧ ∀ r, parse t ≠ .ok r :=
  ⟨⟨State.reset, _, _, _, rfl, parse_recV_one⟩, State.reset, [], rfl, fun _ h => nomatch h⟩

theorem witness_RecordValuesRejected : ∃ id : Identity, id.pubid.toList = List.replicate 6 0 ∧
    id.key.toList = List.replicate 16 0 ∧ id.secid.toList = List.replicate 6 0 := ⟨zeroId, by decide⟩

theorem witness_AnswersDoNotShowTheToken :
    ∃ (i : Instr) (s t u : State) (k l : Token), i ≠ .gen ∧ i ≠ .button ∧ i ≠ .save ∧
      exec i { s with held := .token k } = .next t ∧ exec i { s with held := .token l } = .next u ∧ k ≠ l :=
  ⟨.insert, State.reset, _, _, zeroToken, ⟨zeroId, 2, 0, 0, 0⟩, by decide, by decide, by decide, rfl, rfl, by decide⟩

end Sys2Proof.Tests
end

section
/-! SUPPORT. What the ports' reads and the transitions give, that the pipeline never fails, and every way a command or
a frame can end: the facts the proofs of the statements about the state and the ports share. -/

namespace Sys2Proof.Machine

/-! The ports (R33, R34) -/

/-- R33: the n bytes of a `DrawBytes` are the injected ones, then a free value for each that is missing. -/
theorem drawBytes_toList (n : Nat) (p : Ports) :
    (p.drawBytes n).1.toList =
      p.bytes.take n ++ (List.range (n - p.bytes.length)).map fun j => Config.freeByte p.reads (p.bytes.length + j) := by
  apply List.ext_getElem
  · simp; omega
  · intro i h _
    by_cases hi : i < p.bytes.length
    · have hn : i < n := by simpa using h
      rw [List.getElem_append_left (by simp [hi, hn])]
      simp [Ports.drawBytes, hi]
    · have hle : p.bytes.length ≤ i := Nat.le_of_not_lt hi
      have hn : i < n := by simpa using h
      rw [List.getElem_append_right (by simp; omega)]
      have hmin : min n p.bytes.length = p.bytes.length := by omega
      simp [Ports.drawBytes, hmin, Nat.add_sub_cancel' hle, List.getElem?_eq_none hle]

theorem drawBytes_ports (n : Nat) (p : Ports) :
    (p.drawBytes n).2 = ⟨p.u16s, p.bytes.drop n, p.ticks, p.reads + 1⟩ := rfl

/-- R33: when the bytes asked for are the next ones injected, they are what is drawn. -/
theorem drawBytes_injected {n : Nat} (v : Vector Byte n) (us : List Word16) (bs : List Byte) (ts : List Nat) (m : Nat) :
    Ports.drawBytes n ⟨us, v.toList ++ bs, ts, m⟩ = (v, ⟨us, bs, ts, m + 1⟩) := by
  apply Prod.ext
  · apply Vector.toList_inj.1
    rw [drawBytes_toList]
    simp
  · simp [drawBytes_ports]

/-! Sanitize and the drawn identity (R150, R155) -/

/-- R150: the defensive masks of `Sanitize` change nothing; RND is the draw, TMR the low 24 bits of the tick count. -/
theorem sanitize_eq (id : Identity) (ctr : Word16) (sctr : BitVec 8) (p : Ports) :
    sanitize id ctr sctr p =
      (⟨id, ctr, sctr, BitVec.ofNat 24 p.drawU16.2.clockTicks.1, p.drawU16.1⟩, p.drawU16.2.clockTicks.2) := by
  have hctr : ctr &&& 0xFFFF = ctr := BitVec.and_allOnes
  have hsctr : sctr &&& 0xFF = sctr := BitVec.and_allOnes
  simp only [sanitize, hctr, hsctr]

@[simp] theorem sanitize_reads (id : Identity) (ctr : Word16) (sctr : BitVec 8) (p : Ports) :
    (sanitize id ctr sctr p).2.reads = p.reads + 2 := by
  simp [sanitize_eq]

@[simp] theorem insertion_reads (id : Identity) (ctr : Word16) (p : Ports) :
    (insertion id ctr p).2.reads = p.reads + 2 := sanitize_reads ..

@[simp] theorem drawIdentity_reads (p : Ports) : (drawIdentity p).2.reads = p.reads + 3 := rfl

/-- R33, R34: `Sanitize` takes any random value and any 24-bit tick count that are the next ones injected. -/
theorem sanitize_injected (id : Identity) (ctr : Word16) (sctr : BitVec 8) (r : Word16) (tmr : Word24)
    (us : List Word16) (bs : List Byte) (ts : List Nat) (m : Nat) :
    sanitize id ctr sctr ⟨r :: us, bs, tmr.toNat :: ts, m⟩ = (⟨id, ctr, sctr, tmr, r⟩, ⟨us, bs, ts, m + 2⟩) := by
  have htmr : BitVec.ofNat 24 tmr.toNat = tmr := BitVec.eq_of_toNat_eq (by simp)
  rw [sanitize_eq]
  simp only [Ports.drawU16, Ports.clockTicks, htmr]

/-- R33, R155: the identity drawn is the one whose 28 bytes are the next ones injected. -/
theorem drawIdentity_injected (id : Identity) (us : List Word16) (bs : List Byte) (ts : List Nat) (m : Nat) :
    drawIdentity ⟨us, id.pubid.toList ++ (id.key.toList ++ (id.secid.toList ++ bs)), ts, m⟩ =
      (id, ⟨us, bs, ts, m + 3⟩) := by
  simp only [drawIdentity, drawBytes_injected]

/-! The pipeline never fails (R146) -/

/-- R144, R146: `Generate` answers for every token, since no check of the units it calls can fail. -/
theorem generate_eq (t : Token) :
    generate t = .ok (modhexOfBytes t.id.pubid.toList ++
      modhexOfBytes (aesBlock (keyExpansion t.id.key.toList)
        (plaintext t ++ leBytes 2 ((plaintext t).foldl crcByte crcInit).toNat))) := by
  have hblock (v : Nat) : (plaintext t ++ leBytes 2 v).length = 16 := by
    rw [List.length_append, plaintext_length, leBytes_length]
  have hkey : t.id.key.toList.length = 16 := t.id.key.length_toList
  simp only [generate, crc16_of_length (plaintext_length t), aes128Enc_of_lengths hkey (hblock _), mhEnc_hex]
  rfl

theorem runPipeline_eq_generate (t : Token) : runPipeline t = generate t := by
  rw [runPipeline, generate_eq]; rfl

theorem runPipeline_ok (t : Token) : ∃ text, runPipeline t = .ok text :=
  ⟨_, (runPipeline_eq_generate t).trans (generate_eq t)⟩

/-! The end of a command (R11, R76, R187) -/

@[simp] theorem finish_held (s : State) (x : Except Err (List Byte)) : (s.finish x).held = s.held := by
  cases x <;> rfl

/-- R76: the response shows the end of the command and SR, and nothing else of the state. -/
theorem finish_obuf_congr {s t : State} (hv : s.valid = t.valid) (hh : s.halt = t.halt) (x : Except Err (List Byte)) :
    (s.finish x).obuf = (t.finish x).obuf := by
  cases x with
  | ok v =>
    show responseFrame statusOk s.sr v = responseFrame statusOk t.sr v
    rw [sr_congr hv hh]
  | error e =>
    have hsr : (s.raise e).sr = (t.raise e).sr := sr_congr (by simpa using hv) (by simp [hh])
    show (s.raise e).obuf = (t.raise e).obuf
    rw [raise_obuf, raise_obuf, hsr]

/-- R29: bits 7 to 2 of SR are never set. -/
theorem sr_lt_four (s : State) : s.sr.toNat < 4 := by
  rw [sr_eq]
  cases s.valid <;> cases s.halt <;> decide

/-! The bodies of the commands -/

/-- R153: the commands that write no token register and read no port. -/
def isQuiet : Instr → Bool
  | .mhenc _ | .mhdec _ | .crc16 _ | .aesenc _ _ | .gen | .save => true
  | .insert | .button | .create | .load _ => false

theorem bodyOf_quiet {i : Instr} (h : isQuiet i = true) (s : State) : (bodyOf i s).1 = s := by
  cases i with
  | insert | button | create | load => cases h
  | mhenc | mhdec | crc16 | aesenc => rfl
  | gen | save => cases hs : s.held <;> simp [bodyOf, withToken, hs]

/-- A body that answers with a value: the command is quiet and leaves the state alone, or it is one of the four
transitions and holds the token of its rule. -/
inductive Succeeds (s : State) : Instr → State → Prop
  | unchanged {i : Instr} (h : isQuiet i = true) : Succeeds s i s
  | insert {k : Token} (h : s.held = .token k) : Succeeds s .insert (s.hold (insertion k.id k.ctr s.ports))
  | button {k : Token} (h : s.held = .token k) :
      Succeeds s .button (s.hold (sanitize k.id k.ctr (k.sctr + 1) s.ports))
  | create : Succeeds s .create (s.hold (insertion (drawIdentity s.ports).1 0 (drawIdentity s.ports).2))
  | load {r : List Byte} {id : Identity} {ctr : Word16} (h : parse r = .ok (id, ctr)) :
      Succeeds s (.load r) (s.hold (insertion id ctr s.ports))

/-- R188, R195: everything a body can do: an error, raised before anything is written or read, or a success. -/
theorem bodyOf_cases (i : Instr) (s : State) :
    (∃ e, bodyOf i s = (s, .error e)) ∨ ∃ s' v, bodyOf i s = (s', .ok v) ∧ Succeeds s i s' := by
  by_cases hq : isQuiet i = true
  · have hs : bodyOf i s = (s, (bodyOf i s).2) := Prod.ext (bodyOf_quiet hq s) rfl
    cases hx : (bodyOf i s).2 with
    | error e => exact .inl ⟨e, hx ▸ hs⟩
    | ok v => exact .inr ⟨s, v, hx ▸ hs, .unchanged hq⟩
  · cases i with
    | mhenc | mhdec | crc16 | aesenc | gen | save => exact absurd rfl hq
    | create => exact .inr ⟨_, _, rfl, .create⟩
    | insert =>
      cases hs : s.held with
      | noToken => exact .inl ⟨.invalidState, by simp only [bodyOf, withToken_noToken hs]⟩
      | token k => exact .inr ⟨_, [], by simp only [bodyOf, withToken_token hs], .insert hs⟩
    | button =>
      cases hs : s.held with
      | noToken => exact .inl ⟨.invalidState, by simp only [bodyOf, withToken_noToken hs]⟩
      | token k =>
        obtain ⟨text, htext⟩ := runPipeline_ok (sanitize k.id k.ctr (k.sctr + 1) s.ports).1
        exact .inr ⟨_, text, by simp only [bodyOf, withToken_token hs, htext], .button hs⟩
    | load r =>
      cases hr : parse r with
      | error e => exact .inl ⟨e, by simp only [bodyOf, hr]⟩
      | ok x => exact .inr ⟨_, [], by simp only [bodyOf, hr], .load hr⟩

theorem Succeeds.keeps_valid {i : Instr} {s s' : State} (h : Succeeds s i s') (hv : s.valid = true) :
    s'.valid = true := by
  cases h with
  | unchanged => exact hv
  | insert | button | create | load => rfl

theorem bodyOf_keeps_valid (i : Instr) {s : State} (hv : s.valid = true) : (bodyOf i s).1.valid = true := by
  rcases bodyOf_cases i s with ⟨e, hb⟩ | ⟨s', v, hb, hs⟩
  · rwa [hb]
  · rw [hb]; exact hs.keeps_valid hv

/-- R22: the result of every command but GEN, BUTTON and SAVE is the same whatever token is held. -/
theorem bodyOf_result_of_any_token {i : Instr} (hgen : i ≠ .gen) (hbutton : i ≠ .button) (hsave : i ≠ .save)
    (s : State) (k l : Token) :
    (bodyOf i { s with held := .token k }).2 = (bodyOf i { s with held := .token l }).2 := by
  cases i with
  | gen => exact absurd rfl hgen
  | button => exact absurd rfl hbutton
  | save => exact absurd rfl hsave
  | load r => simp only [bodyOf]; cases parse r <;> rfl
  | mhenc | mhdec | crc16 | aesenc | insert | create => rfl

/-! The whole of a command and of a frame -/

/-- R187 to R191: everything a command can do: it ends in an error with nothing but HALT and OBUF changed, or its body
succeeds and it answers OK. -/
theorem exec_next_cases {i : Instr} {s t : State} (h : exec i s = .next t) :
    (∃ e n, t = s.raise e ∧ t.obuf = answer n t.sr e.info ∧ 1 ≤ n ∧ n ≤ 5) ∨
    ∃ s' v, s.halt = false ∧ bodyOf i s = (s', .ok v) ∧ Succeeds s i s' ∧ t = { s' with obuf := answer 0 s'.sr v } := by
  have raised (e : Err) (ht : exec i s = .next (s.raise e)) :
      ∃ e n, t = s.raise e ∧ t.obuf = answer n t.sr e.info ∧ 1 ≤ n ∧ n ≤ 5 := by
    cases ht.symm.trans h
    rcases finish_answer s (.error e) with ⟨_, hx, _⟩ | ⟨_, n, hx, _, ho, h1, h5, _⟩ <;> cases hx
    exact ⟨e, n, rfl, ho, h1, h5⟩
  rcases exec_cases i s with ⟨_, ht⟩ | ⟨hrun, _⟩
  · exact .inl (raised _ ht)
  · rcases bodyOf_cases i s with ⟨e, hb⟩ | ⟨s', v, hb, hs⟩
    · exact .inl (raised e (exec_error hrun hb))
    · cases (exec_ok hrun hb).symm.trans h
      exact .inr ⟨s', v, hrun, hb, hs, rfl⟩

/-- A command of a running block leaves the registers its body leaves. -/
theorem exec_running_held {i : Instr} {s : State} {x : Held} (h : s.halt = false) (hx : (bodyOf i s).1.held = x) :
    ∃ t, exec i s = .next t ∧ t.held = x :=
  ⟨_, by rw [exec_eq_command, command_running h], (finish_held _ _).trans hx⟩

theorem rejectFrame_eq (s : State) :
    rejectFrame s = .next (s.raise (if s.halt then .invalidState else .invalidInput)) := by
  cases h : s.halt
  · exact command_running h
  · exact command_halted h

/-- R51, R80: a frame either selects no command and is rejected, or runs the command it decodes to. -/
theorem runFrame_cases (f : List Byte) (s : State) :
    (∃ e, decode f = .error e ∧ runFrame f s = rejectFrame (writeFrame f s)) ∨
    ∃ i, decode f = .ok i ∧ runFrame f s = exec i (writeFrame f s) := by
  cases h : decode f with
  | error e => exact .inl ⟨e, rfl, by simp only [runFrame, h]⟩
  | ok i => exact .inr ⟨i, rfl, by simp only [runFrame, h]⟩

/-- R76, R191: two runs of a command with a token held, both halted or both not, whose bodies have the same result,
leave the same response. -/
theorem exec_obuf_congr {i : Instr} {s s' t t' : State} (hv : s.valid = true) (hv' : s'.valid = true)
    (hh : s.halt = s'.halt) (hx : (bodyOf i s).2 = (bodyOf i s').2) (ht : exec i s = .next t)
    (ht' : exec i s' = .next t') : t.obuf = t'.obuf := by
  rw [exec_eq_command] at ht ht'
  cases hhalt : s.halt with
  | true =>
    cases (command_halted hhalt).symm.trans ht
    cases (command_halted (hh ▸ hhalt)).symm.trans ht'
    exact finish_obuf_congr (hv.trans hv'.symm) hh (.error .invalidState)
  | false =>
    cases (command_running hhalt).symm.trans ht
    cases (command_running (hh ▸ hhalt)).symm.trans ht'
    rw [hx]
    refine finish_obuf_congr ((bodyOf_keeps_valid i hv).trans (bodyOf_keeps_valid i hv').symm) ?_ _
    rw [(bodyOf_frame i s).1, (bodyOf_frame i s').1, hh]

/-- R29, R190: what no command and no frame clears. -/
def KeepsBits (s t : State) : Prop :=
  (s.valid = true → t.valid = true) ∧ (s.halt = true → t.halt = true)

theorem keepsBits_raise (s : State) (e : Err) : KeepsBits s (s.raise e) :=
  ⟨id, fun h => by simp [h]⟩

theorem exec_keepsBits {i : Instr} {s t : State} (h : exec i s = .next t) : KeepsBits s t := by
  rcases exec_next_cases h with ⟨e, _, rfl, _⟩ | ⟨s', v, hrun, _, hs, rfl⟩
  · exact keepsBits_raise s e
  · exact ⟨hs.keeps_valid, fun hh => by rw [hrun] at hh; cases hh⟩

theorem runFrame_keepsBits {f : List Byte} {s t : State} (h : runFrame f s = .next t) : KeepsBits s t := by
  rcases runFrame_cases f s with ⟨_, _, hf⟩ | ⟨i, _, hf⟩
  · cases (hf.trans (rejectFrame_eq _)).symm.trans h
    exact keepsBits_raise (writeFrame f s) _
  · exact exec_keepsBits (s := writeFrame f s) (hf.symm.trans h)

end Sys2Proof.Machine
end

section
/-! PROOF. The statements about the state, the status register and the ports (10_state.md). -/

namespace Sys2Proof.Machine

/-- Settles O9: every move of the host but Reset keeps the two bits. -/
theorem validAndHaltAreSticky : Obligations.ValidAndHaltAreSticky := by
  intro s t hstep hreset
  rcases step_cases s with ⟨_, h⟩ | ⟨rest, hhost, _⟩ | ⟨rest, _, h⟩ | ⟨f, rest, _, h⟩
  · cases h.symm.trans hstep
    exact ⟨id, id⟩
  · exact absurd hhost (hreset rest)
  · cases h.symm.trans hstep
    exact ⟨id, id⟩
  · exact runFrame_keepsBits (s := { s with host := rest }) (h.symm.trans hstep)

/-- Settles O46: the wanted identity, random value and tick count are injected as the ports' next answers. -/
theorem everyDrawIsPossible : Obligations.EveryDrawIsPossible := by
  intro s id r tmr hrun
  refine ⟨⟨⟨[r], id.pubid.toList ++ (id.key.toList ++ (id.secid.toList ++ [])), [tmr.toNat], 0⟩,
      exec_running_held hrun ?_⟩,
    fun k hk => ⟨⟨⟨[r], [], [tmr.toNat], 0⟩, exec_running_held hrun ?_⟩,
      ⟨[r], [], [tmr.toNat], 0⟩, exec_running_held hrun ?_⟩⟩
  · simp only [bodyOf, hold_held, drawIdentity_injected, insertion, sanitize_injected, zero_add]
  · simp only [bodyOf, withToken, hk, hold_held, insertion, sanitize_injected]
  · simp only [bodyOf, withToken, hk, hold_held, sanitize_injected]

/-- Settles O47: an error reads no port, and a success reads what its transition draws. -/
theorem portReadCounts : Obligations.PortReadCounts := by
  intro i s t n r h hobuf hn
  rcases exec_next_cases h with ⟨e, m, rfl, hm, h1, h5⟩ | ⟨s', v, _, _, hs, ht⟩
  · have hnm : n = m := (answer_injective (by omega) (by omega) (hobuf.symm.trans hm)).1
    have hn0 : n ≠ 0 := by omega
    simp [hn0]
  · have hok : t.obuf = answer 0 s'.sr v := by rw [ht]
    have hn0 : n = 0 := (answer_injective (by omega) (by omega) (hobuf.symm.trans hok)).1
    have hports : t.ports = s'.ports := by rw [ht]
    rw [hn0, hports]
    cases hs with
    | unchanged hq =>
      cases i with
      | insert | button | create | load => cases hq
      | mhenc | mhdec | crc16 | aesenc | gen | save => exact ⟨rfl, fun _ => rfl⟩
    | insert | button | load => simp
    | create => simp [Nat.add_assoc]

/-- Settles O49: an error and a quiet command keep the token, INSERT adds one to CTR and BUTTON keeps it. -/
theorem identityIsImmutable : Obligations.IdentityIsImmutable := by
  intro i s t k l h hk hl hcreate hload
  have same (ht : t.held = s.held) : l.id = k.id ∧ (l.ctr = k.ctr ∨ l.ctr.toNat = (k.ctr.toNat + 1) % 65536) := by
    cases hl.symm.trans (ht.trans hk)
    exact ⟨rfl, .inl rfl⟩
  rcases exec_next_cases h with ⟨e, _, rfl, _⟩ | ⟨s', v, _, _, hs, rfl⟩
  · exact same rfl
  · cases hs with
    | unchanged => exact same rfl
    | create => exact absurd rfl hcreate
    | load => exact absurd rfl (hload _)
    | insert hk' =>
      cases hk.symm.trans hk'
      cases hl
      exact ⟨rfl, .inr (by simp [insertion, sanitize_eq])⟩
    | button hk' =>
      cases hk.symm.trans hk'
      cases hl
      exact ⟨rfl, .inl (by simp [sanitize_eq])⟩

/-- Settles O60: the two runs have the same result and the same SR, and a response shows nothing else. -/
theorem answersDoNotShowTheToken : Obligations.AnswersDoNotShowTheToken := by
  intro i s t u k l hgen hbutton hsave ht hu
  have hx := bodyOf_result_of_any_token hgen hbutton hsave s k l
  exact exec_obuf_congr (s := { s with held := .token k }) (s' := { s with held := .token l }) rfl rfl rfl hx ht hu

/-- Settles O1 (R38). -/
theorem resetHoldsNoToken : Obligations.ResetHoldsNoToken := ⟨rfl, rfl, rfl, rfl, rfl⟩

/-- Settles O2: SR is one of four values, all below 4. -/
theorem statusRegisterBits : Obligations.StatusRegisterBits := by
  intro s
  refine ⟨?_, ?_, fun j hj => ?_, ?_⟩
  · rw [sr_eq]; cases s.valid <;> cases s.halt <;> rfl
  · rw [sr_eq]; cases s.valid <;> cases s.halt <;> rfl
  · have hpow : 2 ^ 2 ≤ 2 ^ j := Nat.pow_le_pow_right (by decide) hj
    exact Nat.testBit_lt_two_pow (Nat.lt_of_lt_of_le (sr_lt_four s) hpow)
  · cases h : s.held <;> simp [State.valid, h]

/-- Settles O7: OBUF is empty and HALT is 0. -/
theorem resetMeetsInvariant : Obligations.ResetMeetsInvariant :=
  ⟨.inl rfl, fun h => nomatch h⟩

/-- Settles O41: the two word ports by their definition, `DrawBytes` by the bytes it takes and those it leaves. -/
theorem portReads : Obligations.PortReads := by
  refine ⟨fun _ _ _ _ _ => rfl, fun _ _ _ => rfl, fun _ _ _ _ _ => rfl, fun _ _ _ => rfl, ?_, ?_⟩
  · rintro k v us bs ts n rfl
    rw [drawBytes_toList, drawBytes_ports]
    simp
  · intro k v us ts n hk
    rw [drawBytes_toList, drawBytes_ports]
    simp [List.take_of_length_le hk.le, hk.le]

end Sys2Proof.Machine
end

section
/-! SUPPORT. What a frame that decodes carries, how long a result can be, which errors a command can end in, and that
each way a command ends meets the invariant: the facts the statements about the buffers and the response share. -/

namespace Sys2Proof

/-! The decoder, read backwards (R71, R80) -/

/-- R72: the length field whose value was read is the one written for that length. -/
theorem leBytes_leValue (lo hi : Byte) : leBytes 2 (leValue lo hi) = [lo, hi] := by
  have hlo : BitVec.ofNat 8 (leValue lo hi % 256) = lo := BitVec.eq_of_toNat_eq (by simp [leValue]; omega)
  have hhi : BitVec.ofNat 8 (leValue lo hi / 256) = hi := BitVec.eq_of_toNat_eq (by simp [leValue]; omega)
  rw [Machine.leBytes_two, hlo, hhi]

theorem takeOperand_ok {f d rest : List Byte} (h : takeOperand f = .ok (d, rest)) :
    d.length ≤ maxOperand ∧ encodeOperand d ++ rest = f := by
  match f, h with
  | lo :: hi :: tail, h =>
    simp only [takeOperand] at h
    split at h
    · cases h
    · next hlen =>
      cases h
      have hd : (tail.take (leValue lo hi)).length = leValue lo hi := List.length_take_of_le (Nat.le_of_not_lt hlen)
      refine ⟨?_, ?_⟩
      · rw [hd]
        simp only [leValue, maxOperand]
        omega
      · rw [encodeOperand, hd, leBytes_leValue]
        simp

theorem endOfFrame_ok {i j : Instr} {rest : List Byte} (h : endOfFrame j rest = .ok i) : i = j ∧ rest = [] := by
  cases rest with
  | nil => cases h; exact ⟨rfl, rfl⟩
  | cons => cases h

theorem formatB_ok {mk : List Byte → Instr} {f : List Byte} {i : Instr} (h : formatB mk f = .ok i) :
    ∃ d, d.length ≤ maxOperand ∧ encodeOperand d = f ∧ i = mk d := by
  rw [formatB] at h
  split at h
  · cases h
  · next d rest htake =>
    obtain ⟨hi, rfl⟩ := endOfFrame_ok h
    obtain ⟨hd, hf⟩ := takeOperand_ok htake
    exact ⟨d, hd, by rw [← hf, List.append_nil], hi⟩

theorem formatK_ok {mk : List Byte → List Byte → Instr} {f : List Byte} {i : Instr} (h : formatK mk f = .ok i) :
    ∃ d e, d.length ≤ maxOperand ∧ e.length ≤ maxOperand ∧ encodeOperand d ++ encodeOperand e = f ∧ i = mk d e := by
  rw [formatK] at h
  split at h
  · cases h
  · next d rest htake =>
    obtain ⟨e, he, rfl, hi⟩ := formatB_ok h
    obtain ⟨hd, hf⟩ := takeOperand_ok htake
    exact ⟨d, e, hd, he, hf, hi⟩

/-- R71, R80: an instruction is what a frame carries. -/
def Carries (f : List Byte) (i : Instr) : Prop := i.WellFormed ∧ encode i = f

theorem carries_of_endOfFrame {i j : Instr} {b : Byte} {rest : List Byte} (h : endOfFrame j rest = .ok i)
    (hj : j.opcode = b ∧ j.operands = []) : Carries (b :: rest) i := by
  obtain ⟨rfl, rfl⟩ := endOfFrame_ok h
  simp [Carries, Instr.WellFormed, encode, hj]

theorem carries_of_formatB {mk : List Byte → Instr} {i : Instr} {b : Byte} {rest : List Byte}
    (h : formatB mk rest = .ok i) (hmk : ∀ d, (mk d).opcode = b ∧ (mk d).operands = [d]) : Carries (b :: rest) i := by
  obtain ⟨d, hd, rfl, rfl⟩ := formatB_ok h
  simp [Carries, Instr.WellFormed, encode, hmk, hd]

theorem carries_of_formatK {mk : List Byte → List Byte → Instr} {i : Instr} {b : Byte} {rest : List Byte}
    (h : formatK mk rest = .ok i) (hmk : ∀ d e, (mk d e).opcode = b ∧ (mk d e).operands = [d, e]) :
    Carries (b :: rest) i := by
  obtain ⟨d, e, hd, he, rfl, rfl⟩ := formatK_ok h
  simp [Carries, Instr.WellFormed, encode, hmk, hd, he]

/-- R79: an opcode byte whose bits 7 to 4 are 0 is its low nibble. -/
theorem ofNat_of_nibbles {b : Byte} {n : Nat} (hhigh : ¬ b.extractLsb' 4 4 ≠ 0) (hlow : (b.extractLsb' 0 4).toNat = n) :
    BitVec.ofNat 8 n = b := by
  have h : b.toNat / 16 % 16 = 0 := by
    simpa [Nat.shiftRight_eq_div_pow] using congrArg BitVec.toNat (not_not.1 hhigh)
  have hn : b.toNat % 16 = n := by simpa using hlow
  exact BitVec.eq_of_toNat_eq (by rw [BitVec.toNat_ofNat]; omega)

/-- R71, R80: a frame that decodes is the frame of the command read, whose operands fit their length fields. -/
theorem decode_ok {f : List Byte} {i : Instr} (h : decode f = .ok i) : Carries f i := by
  match f, h with
  | b :: rest, h =>
    simp only [decode] at h
    split at h
    · cases h
    · next hhigh =>
      have op {n : Nat} (hn : (b.extractLsb' 0 4).toNat = n) : BitVec.ofNat 8 n = b := ofNat_of_nibbles hhigh hn
      split at h
      · next hn => exact carries_of_formatB h fun _ => ⟨op hn, rfl⟩
      · next hn => exact carries_of_formatB h fun _ => ⟨op hn, rfl⟩
      · next hn => exact carries_of_formatB h fun _ => ⟨op hn, rfl⟩
      · next hn => exact carries_of_formatK h fun _ _ => ⟨op hn, rfl⟩
      · next hn => exact carries_of_endOfFrame h ⟨op hn, rfl⟩
      · next hn => exact carries_of_endOfFrame h ⟨op hn, rfl⟩
      · next hn => exact carries_of_endOfFrame h ⟨op hn, rfl⟩
      · next hn => exact carries_of_endOfFrame h ⟨op hn, rfl⟩
      · next hn => exact carries_of_formatB h fun _ => ⟨op hn, rfl⟩
      · next hn => exact carries_of_endOfFrame h ⟨op hn, rfl⟩
      · cases h

end Sys2Proof

namespace Sys2Proof.Machine

/-! The units of the commands: how long their results are and which errors they raise (R78, R195) -/

/-- R101: one letter for each character. -/
theorem mhEnc_length {t m : List Byte} (h : mhEnc t = .ok m) : m.length = t.length := by
  rw [mhEnc] at h
  split at h
  · cases h
  · next ns hns => cases h; rw [List.length_map, nibbles_length hns]

/-- R103: one digit for each character. -/
theorem mhDec_length {t m : List Byte} (h : mhDec t = .ok m) : m.length = t.length := by
  rw [mhDec] at h
  split at h
  · cases h
  · next ns hns => cases h; rw [List.length_map, nibbles_length hns]

theorem mhEnc_error {t : List Byte} {e : Err} (h : mhEnc t = .error e) : e = .invalidInput := by
  rw [mhEnc] at h
  split at h
  · cases h; rfl
  · cases h

theorem mhDec_error {t : List Byte} {e : Err} (h : mhDec t = .error e) : e = .invalidInput := by
  rw [mhDec] at h
  split at h
  · cases h; rfl
  · cases h

theorem crc16_error {b : List Byte} {e : Err} (h : crc16 b = .error e) : e = .invalidLength := by
  by_cases hb : b.length = 14
  · cases (crc16_of_length hb).symm.trans h
  · cases (crc16_of_wrong_length hb).symm.trans h; rfl

/-- R121: everything `Aes128Enc` can do: one block for a key and a block of 16 bytes, else a fatal error. -/
theorem aes128Enc_cases (k p : List Byte) :
    (∃ c, aes128Enc k p = .ok c ∧ c.length = 16) ∨ aes128Enc k p = .error .invalidState ∨
      aes128Enc k p = .error .internal := by
  by_cases hk : k.length = 16
  · by_cases hp : p.length = 16
    · exact .inl ⟨_, aes128Enc_of_lengths hk hp, aesBlock_length k p⟩
    · exact .inr (.inr (aes128Enc_of_wrong_block hk hp))
  · exact .inr (.inl (aes128Enc_of_wrong_key hk))

/-- R144: an OTP is 12 letters of the public id and 32 of the block. -/
theorem runPipeline_length {t : Token} {text : List Byte} (h : runPipeline t = .ok text) : text.length = 44 := by
  rw [runPipeline_eq_generate, generate_eq] at h
  cases h
  rw [List.length_append, modhexOfBytes_length, modhexOfBytes_length, aesBlock_length, Vector.length_toList]

theorem runPipeline_ne_error {t : Token} {e : Err} : runPipeline t ≠ .error e := by
  obtain ⟨text, htext⟩ := runPipeline_ok t
  rw [htext]
  exact fun h => nomatch h

theorem decimalLoop_length_le (fuel v : Nat) : (decimalLoop fuel v).length ≤ fuel := by
  induction fuel generalizing v with
  | zero => exact Nat.le_refl 0
  | succ fuel ih =>
    rw [decimalLoop]
    split
    · simp
    · rw [List.length_append]
      exact Nat.succ_le_succ (ih _)

theorem decimalLoop_succ_length_pos (fuel v : Nat) : 1 ≤ (decimalLoop (fuel + 1) v).length := by
  rw [decimalLoop]
  split <;> simp

/-- R175: the numeral has 1 to 5 digits. -/
theorem decimal_length (v : Nat) : 1 ≤ (decimal v).length ∧ (decimal v).length ≤ 5 :=
  ⟨decimalLoop_succ_length_pos 4 v, decimalLoop_length_le 5 v⟩

/-- R176: all of a record but its numeral is 125 characters. -/
theorem format_length (id : Identity) (ctr : Word16) :
    (format id ctr).length = 125 + (decimal ctr.toNat).length := by
  simp only [format, List.length_append, modhexOfBytes_length, hex_length, Vector.length_toList, headerLine, pubidLabel,
    keyLabel, secidLabel, counterLabel, ascii, List.length_map, List.length_cons, List.length_nil]
  omega

theorem parse_error {t : List Byte} {e : Err} (h : parse t = .error e) : e = .formatError t := by
  rw [parse] at h
  split at h
  · cases h
  · cases h; rfl

/-! The bodies of the commands: their results and their errors -/

theorem withToken_ok {body : Token → State → State × Except Err (List Byte)} {s : State} {v : List Byte}
    (h : (withToken body s).2 = .ok v) : ∃ k, s.held = .token k ∧ (body k s).2 = .ok v := by
  cases hs : s.held with
  | noToken => rw [withToken_noToken hs] at h; cases h
  | token k => rw [withToken_token hs] at h; exact ⟨k, rfl, h⟩

theorem withToken_error {body : Token → State → State × Except Err (List Byte)} {s : State} {e : Err}
    (h : (withToken body s).2 = .error e) :
    (s.held = .noToken ∧ e = .invalidState) ∨ ∃ k, s.held = .token k ∧ (body k s).2 = .error e := by
  cases hs : s.held with
  | noToken => rw [withToken_noToken hs] at h; cases h; exact .inl ⟨rfl, rfl⟩
  | token k => rw [withToken_token hs] at h; exact .inr ⟨k, rfl, h⟩

/-- R78: the RLEN column, for every body that ends in a value. -/
theorem bodyOf_resultLength {i : Instr} {s : State} {v : List Byte} (h : (bodyOf i s).2 = .ok v) :
    resultLength i v.length := by
  cases i with
  | mhenc t => exact mhEnc_length h
  | mhdec t => exact mhDec_length h
  | crc16 b =>
    replace h : (crc16 b).map (fun c => leBytes 2 c.toNat) = .ok v := h
    cases hc : crc16 b with
    | error e => rw [hc] at h; cases h
    | ok c => rw [hc] at h; cases h; exact leBytes_length 2 _
  | aesenc k p =>
    replace h : aes128Enc k p = .ok v := h
    rcases aes128Enc_cases k p with ⟨c, hc, hlen⟩ | hc | hc <;> cases hc.symm.trans h
    exact hlen
  | gen | button =>
    obtain ⟨k, _, hk⟩ := withToken_ok h
    exact runPipeline_length hk
  | insert =>
    obtain ⟨k, _, hk⟩ := withToken_ok h
    cases hk; rfl
  | create => cases h; rfl
  | load t =>
    simp only [bodyOf] at h
    cases hp : parse t with
    | error e => rw [hp] at h; cases h
    | ok r => rw [hp] at h; cases h; rfl
  | save =>
    obtain ⟨k, _, hk⟩ := withToken_ok h
    cases hk
    obtain ⟨h1, h5⟩ := decimal_length k.ctr.toNat
    show 126 ≤ (format k.id k.ctr).length ∧ (format k.id k.ctr).length ≤ 130
    rw [format_length]
    omega

/-- R195: the errors a command of a running block can end in. -/
inductive Fails : Instr → Err → Prop
  | mhenc (t : List Byte) : Fails (.mhenc t) .invalidInput
  | mhdec (t : List Byte) : Fails (.mhdec t) .invalidInput
  | crc16 (b : List Byte) : Fails (.crc16 b) .invalidLength
  | aesencKey (k p : List Byte) : Fails (.aesenc k p) .invalidState
  | aesencBlock (k p : List Byte) : Fails (.aesenc k p) .internal
  | gen : Fails .gen .invalidState
  | insert : Fails .insert .invalidState
  | button : Fails .button .invalidState
  | load (t : List Byte) : Fails (.load t) (.formatError t)
  | save : Fails .save .invalidState

theorem bodyOf_fails {i : Instr} {s : State} {e : Err} (h : (bodyOf i s).2 = .error e) : Fails i e := by
  cases i with
  | mhenc t => cases mhEnc_error h; exact .mhenc t
  | mhdec t => cases mhDec_error h; exact .mhdec t
  | crc16 b =>
    replace h : (crc16 b).map (fun c => leBytes 2 c.toNat) = .error e := h
    cases hc : crc16 b with
    | error e' =>
      rw [hc] at h
      cases h
      cases crc16_error hc
      exact .crc16 b
    | ok c => rw [hc] at h; cases h
  | aesenc k p =>
    replace h : aes128Enc k p = .error e := h
    rcases aes128Enc_cases k p with ⟨c, hc, _⟩ | hc | hc <;> cases hc.symm.trans h
    · exact .aesencKey k p
    · exact .aesencBlock k p
  | gen =>
    rcases withToken_error h with ⟨_, rfl⟩ | ⟨k, _, hk⟩
    · exact .gen
    · exact absurd hk runPipeline_ne_error
  | insert =>
    rcases withToken_error h with ⟨_, rfl⟩ | ⟨k, _, hk⟩
    · exact .insert
    · cases hk
  | button =>
    rcases withToken_error h with ⟨_, rfl⟩ | ⟨k, _, hk⟩
    · exact .button
    · exact absurd hk runPipeline_ne_error
  | create => cases h
  | load t =>
    simp only [bodyOf] at h
    cases hp : parse t with
    | error e' =>
      rw [hp] at h
      cases h
      cases parse_error hp
      exact .load t
    | ok r => rw [hp] at h; cases h
  | save =>
    rcases withToken_error h with ⟨_, rfl⟩ | ⟨k, _, hk⟩
    · exact .save
    · cases hk

/-- R52, R70: the result of a command whose operands fit their length fields fits RLEN. -/
theorem resultLength_le {i : Instr} (hw : i.WellFormed) {n : Nat} (h : resultLength i n) : n ≤ maxOperand := by
  cases i with
  | mhenc t | mhdec t => exact h ▸ hw t (List.mem_singleton.2 rfl)
  | save => exact h.2.trans (by decide)
  | crc16 | aesenc | gen | insert | button | create | load => cases h; decide

/-- R189: the copy of the record is as long as the operand, and there is no other information. -/
theorem Fails.info_length_le {i : Instr} {e : Err} (h : Fails i e) (hw : i.WellFormed) :
    e.info.length ≤ maxOperand := by
  cases h with
  | load t => exact hw t (List.mem_singleton.2 rfl)
  | mhenc | mhdec | crc16 | aesencKey | aesencBlock | gen | insert | button | save => exact Nat.zero_le _

/-! The invariant (R76, R190) at each way a command ends -/

/-- R187: the response of an error, STATUS the kind's code. -/
theorem raise_answer (s : State) (e : Err) : (s.raise e).obuf = answer e.code.toNat (s.raise e).sr e.info := by
  rw [raise_obuf, ← responseFrame_eq_answer, BitVec.ofNat_toNat, BitVec.setWidth_eq]

theorem Err.code_le (e : Err) : e.code.toNat ≤ 5 := by
  cases e <;> simp [Err.code]

/-- R189: only `FormatError` carries information. -/
theorem Err.code_of_info {e : Err} (h : e.info ≠ []) : e.code.toNat = 4 := by
  cases e with
  | formatError r => rfl
  | invalidInput | invalidLength | invalidState | internal => exact absurd rfl h

/-- R77, R186: a fatal error has code 3 or 5 and carries no information. -/
theorem Err.fatal_code_info {e : Err} (h : e.fatal = true) :
    (e.code.toNat = 3 ∨ e.code.toNat = 5) ∧ e.info = [] := by
  cases e with
  | invalidState | internal => simp [Err.code, Err.info]
  | invalidInput | invalidLength | formatError => cases h

/-- R187 to R191: an error meets the invariant when its information fits RLEN and a halted block raises only fatal
kinds. -/
theorem raise_inv {s : State} {e : Err} (hlen : e.info.length ≤ maxOperand) (hhalt : s.halt = true → e.fatal = true) :
    (s.raise e).Inv := by
  refine ⟨.inr ⟨_, _, e.code_le, hlen, raise_answer s e, fun h => .inr (Err.code_of_info h)⟩, fun h => ?_⟩
  have hfatal : e.fatal = true := (Bool.or_eq_true_iff.1 h).elim hhalt id
  obtain ⟨hcode, hinfo⟩ := Err.fatal_code_info hfatal
  rw [raise_answer, hinfo]
  exact hcode.imp (fun h => by rw [h]) (fun h => by rw [h])

/-- R76: the response of a command that ends in a value meets the invariant when the value fits RLEN. -/
theorem answerOk_inv {s : State} {v : List Byte} (hrun : s.halt = false) (hlen : v.length ≤ maxOperand) :
    ({ s with obuf := answer 0 s.sr v } : State).Inv :=
  ⟨.inr ⟨0, v, Nat.zero_le _, hlen, rfl, fun _ => .inl rfl⟩, fun h => by cases hrun.symm.trans h⟩

/-- R76, R190: whatever state it starts from, a command whose operands fit their length fields ends in the
invariant. -/
theorem exec_inv {i : Instr} {s t : State} (hw : i.WellFormed) (h : exec i s = .next t) : t.Inv := by
  rcases exec_cases i s with ⟨_, ht⟩ | ⟨hrun, _⟩
  · cases ht.symm.trans h
    exact raise_inv (Nat.zero_le _) fun _ => rfl
  · obtain ⟨hhalt, _⟩ := bodyOf_frame i s
    rw [hrun] at hhalt
    cases hx : (bodyOf i s).2 with
    | ok v =>
      cases (exec_ok hrun (Prod.ext rfl hx)).symm.trans h
      exact answerOk_inv hhalt (resultLength_le hw (bodyOf_resultLength hx))
    | error e =>
      cases (exec_error hrun (Prod.ext rfl hx)).symm.trans h
      exact raise_inv ((bodyOf_fails hx).info_length_le hw) fun hh => by cases hhalt.symm.trans hh

theorem rejectFrame_inv {s t : State} (h : rejectFrame s = .next t) : t.Inv := by
  cases (rejectFrame_eq s).symm.trans h
  cases hhalt : s.halt with
  | false => exact raise_inv (Nat.zero_le _) fun hh => by cases hhalt.symm.trans hh
  | true => exact raise_inv (Nat.zero_le _) fun _ => rfl

/-- R76, R190: every frame, from any state, ends in the invariant. -/
theorem runFrame_inv {f : List Byte} {s t : State} (h : runFrame f s = .next t) : t.Inv := by
  rcases runFrame_cases f s with ⟨_, _, hf⟩ | ⟨i, hi, hf⟩
  · exact rejectFrame_inv (hf.symm.trans h)
  · exact exec_inv (decode_ok hi).1 (hf.symm.trans h)

theorem resetBlock_inv (s : State) : (resetBlock s).Inv := ⟨.inl rfl, fun h => nomatch h⟩

/-- The host's list of moves is no part of the invariant. -/
theorem State.Inv.with_host {s : State} (h : s.Inv) (rest : List HostMove) : ({ s with host := rest } : State).Inv :=
  ⟨h.response, h.halted⟩

/-! One move of the host (R53, R206) -/

theorem step_nil {s : State} (h : s.host = []) : step s = .next s := by rw [step, h]

theorem step_cons {s : State} {m : HostMove} {rest : List HostMove} (h : s.host = m :: rest) :
    step s = runMove m { s with host := rest } := by rw [step, h]

theorem runFrame_of_decode {f : List Byte} {i : Instr} {s : State} (h : decode f = .ok i) :
    runFrame f s = exec i (writeFrame f s) := by rw [runFrame, h]

end Sys2Proof.Machine
end

section
/-! PROOF. The statements about the buffers and one transaction (20_memory.md). -/

namespace Sys2Proof.Machine

/-- Settles O8: a frame ends in the invariant from any state; reset, reading and waiting keep what there is. -/
theorem stepKeepsInvariant : Obligations.StepKeepsInvariant := by
  intro s t hinv hstep
  rcases step_cases s with ⟨_, h⟩ | ⟨rest, _, h⟩ | ⟨rest, _, h⟩ | ⟨f, rest, _, h⟩
  · cases h.symm.trans hstep
    exact hinv
  · cases h.symm.trans hstep
    exact resetBlock_inv _
  · cases h.symm.trans hstep
    exact hinv.with_host rest
  · exact runFrame_inv (h.symm.trans hstep)

/-- Settles O4: the two moves that are no command. -/
theorem readingAndWaitingChangeNothing : Obligations.ReadingAndWaitingChangeNothing :=
  ⟨fun _ _ hhost => step_cons hhost, fun _ hhost => step_nil hhost⟩

/-- Settles O5: R80's decoder chooses the command. -/
theorem stepRunsDecodedCommand : Obligations.StepRunsDecodedCommand :=
  fun _ _ _ _ hhost hdecode => (step_cons hhost).trans (runFrame_of_decode hdecode)

end Sys2Proof.Machine
end

section
/-! SUPPORT. The decoder run on the frames the encoder writes, and what a step answers to a frame that selects no
command: the facts the statements about the encoding share. -/

namespace Sys2Proof

/-! The decoder, read forwards (R71, R80) -/

/-- R72: the value of the length field written for a length that fits it. -/
theorem leValue_mod_div {v : Nat} (h : v ≤ maxOperand) :
    leValue (BitVec.ofNat 8 (v % 256)) (BitVec.ofNat 8 (v / 256)) = v := by
  simp only [leValue, maxOperand, BitVec.toNat_ofNat] at h ⊢
  omega

/-- R71: an operand in a frame is its length field, low byte first, and its bytes. -/
theorem encodeOperand_eq (d : List Byte) : encodeOperand d = Machine.lengthField d ++ d := by
  rw [encodeOperand, Machine.leBytes_two, Machine.lengthField]

/-- R80: the decoder takes back an operand as it was written, whatever follows it. -/
theorem takeOperand_encodeOperand {d : List Byte} (hd : d.length ≤ maxOperand) (rest : List Byte) :
    takeOperand (encodeOperand d ++ rest) = .ok (d, rest) := by
  simp [encodeOperand_eq, Machine.lengthField, takeOperand, leValue_mod_div hd]

theorem formatB_encodeOperand (mk : List Byte → Instr) {d : List Byte} (hd : d.length ≤ maxOperand) (rest : List Byte) :
    formatB mk (encodeOperand d ++ rest) = endOfFrame (mk d) rest := by
  rw [formatB, takeOperand_encodeOperand hd]

theorem formatK_encodeOperand (mk : List Byte → List Byte → Instr) {d e : List Byte} (hd : d.length ≤ maxOperand)
    (he : e.length ≤ maxOperand) (rest : List Byte) :
    formatK mk (encodeOperand d ++ (encodeOperand e ++ rest)) = endOfFrame (mk d e) rest := by
  rw [formatK, takeOperand_encodeOperand hd]
  exact formatB_encodeOperand (mk d) he rest

/-- R71, R80, format B: the opcode byte selects one operand. -/
theorem decode_encode_append_of_formatB {mk : List Byte → Instr} {b : Byte} {d : List Byte}
    (hdecode : ∀ rest, decode (b :: rest) = formatB mk rest) (hmk : (mk d).opcode = b ∧ (mk d).operands = [d])
    (hw : (mk d).WellFormed) (more : List Byte) : decode (encode (mk d) ++ more) = endOfFrame (mk d) more := by
  obtain ⟨hop, hd⟩ := hmk
  have hlen : d.length ≤ maxOperand := hw d (hd ▸ List.mem_singleton.2 rfl)
  rw [encode, hop, hd, List.flatMap_singleton, List.cons_append, hdecode]
  exact formatB_encodeOperand mk hlen more

/-- R71, R80, format K: the opcode byte selects two operands. -/
theorem decode_encode_append_of_formatK {mk : List Byte → List Byte → Instr} {b : Byte} {d e : List Byte}
    (hdecode : ∀ rest, decode (b :: rest) = formatK mk rest)
    (hmk : (mk d e).opcode = b ∧ (mk d e).operands = [d, e])
    (hw : (mk d e).WellFormed) (more : List Byte) : decode (encode (mk d e) ++ more) = endOfFrame (mk d e) more := by
  obtain ⟨hop, hde⟩ := hmk
  have hd : d.length ≤ maxOperand := hw d (hde ▸ List.mem_cons_self ..)
  have he : e.length ≤ maxOperand := hw e (hde ▸ List.mem_cons_of_mem _ (List.mem_singleton.2 rfl))
  rw [encode, hop, hde, List.flatMap_cons, List.flatMap_singleton, List.cons_append, hdecode, List.append_assoc]
  exact formatK_encodeOperand mk hd he more

/-- R80: the decoder reads a command's frame to its end, and then only asks whether bytes remain. -/
theorem decode_encode_append {i : Instr} (hw : i.WellFormed) (more : List Byte) :
    decode (encode i ++ more) = endOfFrame i more := by
  cases i with
  | mhenc => exact decode_encode_append_of_formatB (mk := .mhenc) (b := 0x01) (fun _ => rfl) ⟨rfl, rfl⟩ hw more
  | mhdec => exact decode_encode_append_of_formatB (mk := .mhdec) (b := 0x02) (fun _ => rfl) ⟨rfl, rfl⟩ hw more
  | crc16 => exact decode_encode_append_of_formatB (mk := .crc16) (b := 0x03) (fun _ => rfl) ⟨rfl, rfl⟩ hw more
  | load => exact decode_encode_append_of_formatB (mk := .load) (b := 0x09) (fun _ => rfl) ⟨rfl, rfl⟩ hw more
  | aesenc => exact decode_encode_append_of_formatK (mk := .aesenc) (b := 0x04) (fun _ => rfl) ⟨rfl, rfl⟩ hw more
  | gen | insert | button | create | save => rfl

/-- R80: every well-formed command is read back from its frame. -/
theorem decode_encode {i : Instr} (hw : i.WellFormed) : decode (encode i) = .ok i := by
  have h := decode_encode_append hw []
  rwa [List.append_nil] at h

/-- R71, R80: the frames that decode to a command are its own frame alone. -/
theorem decode_eq_ok_iff {f : List Byte} {i : Instr} : decode f = .ok i ↔ i.WellFormed ∧ f = encode i :=
  ⟨fun h => (decode_ok h).imp_right Eq.symm, fun ⟨hw, hf⟩ => hf ▸ decode_encode hw⟩

/-- R80: no command's frame begins with another command's frame. -/
theorem encode_append_ne_encode {i j : Instr} {more : List Byte} (hmore : more ≠ []) (hi : i.WellFormed)
    (hj : j.WellFormed) : encode j ≠ encode i ++ more := fun h => by
  have hend : endOfFrame i more = .ok j := by rw [← decode_encode_append hi, ← h, decode_encode hj]
  exact hmore (endOfFrame_ok hend).2

/-! The bytes of a frame (R71), per format -/

theorem decode_formatN {f : List Byte} {i : Instr} (hi : i.operands = []) : decode f = .ok i ↔ f = [i.opcode] := by
  simp [decode_eq_ok_iff, Instr.WellFormed, encode, hi]

theorem decode_formatB {f d : List Byte} {i : Instr} (hi : i.operands = [d]) :
    decode f = .ok i ↔ d.length ≤ 65535 ∧ f = [i.opcode] ++ Machine.lengthField d ++ d := by
  simp [decode_eq_ok_iff, Instr.WellFormed, encode, hi, encodeOperand_eq]

theorem decode_formatK {f d e : List Byte} {i : Instr} (hi : i.operands = [d, e]) :
    decode f = .ok i ↔ d.length ≤ 65535 ∧ e.length ≤ 65535 ∧
      f = [i.opcode] ++ Machine.lengthField d ++ d ++ Machine.lengthField e ++ e := by
  simp [decode_eq_ok_iff, Instr.WellFormed, encode, hi, encodeOperand_eq, and_assoc]

/-- R74, R79: bits 7 to 4 of a command's opcode byte are 0, and `op` is 0x1 to 0xA. -/
theorem opcode_legal (i : Instr) : i.opcode.toNat / 16 = 0 ∧ 1 ≤ i.opcode.toNat % 16 ∧ i.opcode.toNat % 16 ≤ 0xA := by
  cases i <;> simp [Instr.opcode]

end Sys2Proof

namespace Sys2Proof.Machine

/-! How every frame ends (R76, R80) -/

/-- R187, R191: every command, halted or not, ends by writing a response. -/
theorem command_finishes (body : State → State × Except Err (List Byte)) (s : State) :
    ∃ u x, command body s = .next (State.finish u x) := by
  rcases command_cases body s with ⟨_, h⟩ | ⟨_, h⟩
  · exact ⟨s, .error .invalidState, h⟩
  · exact ⟨_, _, h⟩

theorem runFrame_finishes (f : List Byte) (s : State) : ∃ u x, runFrame f s = .next (State.finish u x) := by
  rcases runFrame_cases f s with ⟨_, _, h⟩ | ⟨i, _, h⟩
  · rw [h]
    exact command_finishes _ _
  · rw [h, exec_eq_command]
    exact command_finishes _ _

theorem finish_obuf_ne_nil (s : State) (x : Except Err (List Byte)) : (s.finish x).obuf ≠ [] := by
  cases x <;> exact List.cons_ne_nil _ _

theorem rejectFrame_running {s : State} (h : s.halt = false) :
    rejectFrame s = .next { s with obuf := answer 1 s.sr [] } := by
  rw [← responseFrame_eq_answer]
  exact (command_running h).trans (congrArg _ (raise_of_not_fatal s .invalidInput rfl))

/-- R79, R80: a running block answers `InvalidInput` to a frame that is no command's and changes only the buffers. -/
theorem step_of_no_command {s : State} {f : List Byte} {rest : List HostMove} (hrun : s.halt = false)
    (hhost : s.host = .command f :: rest) (hf : ∀ i : Instr, i.WellFormed → encode i ≠ f) :
    step s = .next { s with host := rest, ibuf := f, obuf := answer 1 s.sr [] } := by
  rw [step_cons hhost]
  rcases runFrame_cases f { s with host := rest } with ⟨_, _, h⟩ | ⟨i, hi, _⟩
  · exact h.trans (rejectFrame_running hrun)
  · obtain ⟨hw, henc⟩ := decode_ok hi
    exact absurd henc (hf i hw)

end Sys2Proof.Machine
end

section
/-! PROOF. The statements about the encoding and the response (30_encoding.md). -/

namespace Sys2Proof.Machine

/-- Settles O10: the decoder run on the encoder's frames, and read backwards. -/
theorem decodeEncodeAgree : Obligations.DecodeEncodeAgree :=
  ⟨fun _ => decode_encode, fun _ _ => decode_ok⟩

/-- Settles O6: every frame ends by writing a response, and the response form is part of the invariant. -/
theorem everyCommandAnswers : Obligations.EveryCommandAnswers := by
  intro s f rest hhost
  obtain ⟨u, x, hrun⟩ := runFrame_finishes f { s with host := rest }
  obtain ⟨n, r, hn, hr, hobuf, _⟩ := (runFrame_inv hrun).response.resolve_left (finish_obuf_ne_nil u x)
  exact ⟨u.finish x, n, r, (step_cons hhost).trans hrun, hn, hr, hobuf, hobuf ▸ answer_length n _ r⟩

/-- Settles O11: the layout of each command's format. -/
theorem frameLayout : Obligations.FrameLayout := fun _ _ _ =>
  ⟨decode_formatB rfl, decode_formatB rfl, decode_formatB rfl, decode_formatB rfl, decode_formatK rfl,
    decode_formatN rfl, decode_formatN rfl, decode_formatN rfl, decode_formatN rfl, decode_formatN rfl⟩

/-- Settles O13: a frame that begins with an illegal opcode byte is no command's frame. -/
theorem illegalOpcodesAreInvalidInput : Obligations.IllegalOpcodesAreInvalidInput := by
  refine ⟨fun s b more rest hrun hb hhost => step_of_no_command hrun hhost fun i _ henc => ?_, by decide +kernel⟩
  have hop : i.opcode = b := (List.cons.inj henc).1
  obtain ⟨hhigh, hlow, hmax⟩ := opcode_legal i
  rw [hop] at hhigh hlow hmax
  omega

/-- Settles O14: a frame is not empty, and what is left of a frame that is cut is a frame's beginning. -/
theorem malformedFramesAreInvalidInput : Obligations.MalformedFramesAreInvalidInput := by
  refine ⟨fun s f rest => step_of_no_command, fun i => List.cons_ne_nil _ _,
    fun i j more => encode_append_ne_encode, fun i j n hn hi hj hcut => ?_⟩
  have hmore : (encode i).drop n ≠ [] := by simpa using hn
  have happend : encode i = encode j ++ (encode i).drop n := by rw [hcut, List.take_append_drop]
  exact encode_append_ne_encode hmore hj hi happend

/-- Settles O21: STATUS 0 is the answer of a body that ended in a value. -/
theorem resultLengths : Obligations.ResultLengths := by
  intro i s t r h hobuf
  rcases exec_next_cases h with ⟨e, n, _, hn, h1, h5⟩ | ⟨s', v, _, hb, _, rfl⟩
  · have h0 : 0 = n := (answer_injective (by omega) (by omega) (hobuf.symm.trans hn)).1
    omega
  · have hv : v = r := (answer_injective (by omega) (by omega) hobuf).2.2
    exact hv ▸ bodyOf_resultLength (congrArg Prod.snd hb)

/-- Settles O12: the decoder run on each of the frames. -/
theorem decodeOfWrittenFrames : Obligations.DecodeOfWrittenFrames := by
  unfold Obligations.DecodeOfWrittenFrames
  decide

end Sys2Proof.Machine
end

section
/-! SUPPORT. The codec as the spec's table: what MhEnc and MhDec accept and answer is what the table of R100 maps, so
the statements about the codec are statements about the table's rows. -/

namespace Sys2Proof.Machine

/-! Texts under a table (R100, R101, R103) -/

/-- A text that a table maps has no character outside it. -/
theorem not_hasCharOutside_of_mapsBy {table : List (Byte × Byte)} {t out : List Byte} (h : MapsBy table t out) :
    ¬ HasCharOutside table t := by
  rintro ⟨ch, hmem, hout⟩
  induction h with
  | nil => cases hmem
  | cons hrow _ ih =>
    rcases List.mem_cons.1 hmem with rfl | hmem
    · exact hout _ hrow
    · exact ih hmem

/-- R104: a table that leads each row of another back, up to `fold`, maps a text's image to the text under `fold`. -/
theorem mapsBy_back {table back : List (Byte × Byte)} {fold : Byte → Byte}
    (hrows : ∀ row ∈ table, (row.2, fold row.1) ∈ back) {t m : List Byte} (h : MapsBy table t m) :
    MapsBy back m (t.map fold) :=
  List.forall₂_map_right_iff.2 (.flip (h.imp fun ch o hrow => hrows (ch, o) hrow))

/-- R101, R103: reading a text as nibbles and writing them in another alphabet is the table that does both. -/
theorem map_nibbles_eq_some_iff {table : List (Byte × Byte)} {read : Byte → Option Nibble} {write : Nibble → Byte}
    (hrow : ∀ {ch o}, (ch, o) ∈ table ↔ ∃ n, read ch = some n ∧ write n = o) {t m : List Byte} :
    (nibbles read t).map (List.map write) = some m ↔ MapsBy table t m := by
  induction t generalizing m with
  | nil => simp [nibbles, eq_comm]
  | cons ch t ih =>
    simp only [List.forall₂_cons_left_iff, ← ih, nibbles]
    cases hch : read ch with
    | none => simp [hrow, hch]
    | some n => cases nibbles read t <;> simp [hrow, hch, eq_comm]

theorem nibbles_map_left (read : Byte → Option Nibble) (fold : Byte → Byte) (t : List Byte) :
    nibbles read (t.map fold) = nibbles (read ∘ fold) t := by
  induction t with
  | nil => rfl
  | cons ch t ih => simp only [List.map_cons, nibbles, ih, Function.comp_apply]

/-! The codec (R101 to R104) -/

theorem mhEnc_eq_ok_iff {t m : List Byte} : mhEnc t = .ok m ↔ MapsBy hexToModhex t m := by
  rw [← map_nibbles_eq_some_iff mem_hexToModhex_iff, mhEnc]
  cases nibbles nibbleOfHex t <;> simp

theorem mhDec_eq_ok_iff {t m : List Byte} : mhDec t = .ok m ↔ MapsBy modhexToHex t m := by
  rw [← map_nibbles_eq_some_iff mem_modhexToHex_iff, mhDec]
  cases nibbles nibbleOfModhex t <;> simp

/-- R100, R104: a modhex letter leads back to the lowercase form of each hex character it stands for. -/
theorem hexToModhex_back : ∀ row ∈ hexToModhex, (row.2, lowerChar row.1) ∈ modhexToHex := by
  simp [hexToModhex, modhexToHex, lowerChar]

theorem modhexToHex_back : ∀ row ∈ modhexToHex, (row.2, row.1) ∈ hexToModhex := by
  simp [hexToModhex, modhexToHex]

/-- R104: `MhDec(MhEnc(t)) = lower(t)`, row by row. -/
theorem mhDec_of_mhEnc {t m : List Byte} (h : mhEnc t = .ok m) : mhDec m = .ok (t.map lowerChar) :=
  mhDec_eq_ok_iff.2 (mapsBy_back hexToModhex_back (mhEnc_eq_ok_iff.1 h))

/-- R104: `MhEnc(MhDec(m)) = m`, row by row. -/
theorem mhEnc_of_mhDec {m h : List Byte} (hm : mhDec m = .ok h) : mhEnc h = .ok m := by
  have hback : MapsBy hexToModhex h (m.map id) := mapsBy_back modhexToHex_back (mhDec_eq_ok_iff.1 hm)
  rw [mhEnc_eq_ok_iff]
  rwa [List.map_id] at hback

/-- R101: a character and its lowercase form are the same nibble, or both none. -/
theorem nibbleOfHex_lowerChar (ch : Byte) : nibbleOfHex (lowerChar ch) = nibbleOfHex ch := by
  revert ch; decide +kernel

/-- R101, R102: MhEnc is case-insensitive. -/
theorem mhEnc_map_lowerChar (t : List Byte) : mhEnc (t.map lowerChar) = mhEnc t := by
  have hread : nibbleOfHex ∘ lowerChar = nibbleOfHex := funext nibbleOfHex_lowerChar
  rw [mhEnc, nibbles_map_left, hread, mhEnc]

/-- R102: what MhDec answers for a text says which texts encode to it, up to case. -/
theorem mhEnc_injective_up_to_case {t u m : List Byte} (ht : mhEnc t = .ok m) (hu : mhEnc u = .ok m) :
    t.map lowerChar = u.map lowerChar :=
  Except.ok.inj ((mhDec_of_mhEnc ht).symm.trans (mhDec_of_mhEnc hu))

/-! The commands (R101, R103) -/

/-- R188: a running command whose body ends in `InvalidInput` answers STATUS 1 with no result. -/
theorem exec_invalidInput {i : Instr} {s s' : State} (h : s.halt = false)
    (hb : bodyOf i s = (s', .error .invalidInput)) : exec i s = .next { s' with obuf := answer 1 s'.sr [] } := by
  rw [exec_error h hb, raise_of_not_fatal s' .invalidInput rfl, ← responseFrame_eq_answer]; rfl

/-- R101, R103: a command whose body maps a text by a table, or ends in `InvalidInput` and in no other error. -/
theorem exec_substitutes {table : List (Byte × Byte)} {t : List Byte} {i : Instr} {s : State}
    {x : Except Err (List Byte)} (hbody : bodyOf i s = (s, x)) (hok : ∀ {out}, x = .ok out ↔ MapsBy table t out)
    (herror : ∀ {e}, x = .error e → e = .invalidInput) (hrun : s.halt = false) :
    (∀ out, MapsBy table t out → exec i s = .next { s with obuf := answer 0 s.sr out }) ∧
      (HasCharOutside table t → exec i s = .next { s with obuf := answer 1 s.sr [] }) := by
  refine ⟨fun out hmaps => exec_ok hrun (hok.2 hmaps ▸ hbody), fun hout => ?_⟩
  cases x with
  | ok out => exact absurd hout (not_hasCharOutside_of_mapsBy (hok.1 rfl))
  | error e =>
    cases herror rfl
    exact exec_invalidInput hrun hbody

end Sys2Proof.Machine
end

section
/-! PROOF. The statements about the Modhex Codec (40_modhex.md). -/

namespace Sys2Proof.Machine

/-- Settles O22: MhEnc is the table of R100. -/
theorem mhencSubstitutes : Obligations.MhencSubstitutes := fun _ _ =>
  exec_substitutes rfl mhEnc_eq_ok_iff mhEnc_error

/-- Settles O23: MhDec is the table read the other way. -/
theorem mhdecSubstitutes : Obligations.MhdecSubstitutes := fun _ _ =>
  exec_substitutes rfl mhDec_eq_ok_iff mhDec_error

/-- Settles O24: each row of one table is led back by a row of the other. -/
theorem modhexRoundTrips : Obligations.ModhexRoundTrips :=
  ⟨fun _ _ => mhDec_of_mhEnc, fun _ _ => mhEnc_of_mhDec⟩

/-- Settles O25: the injectivity is R104's round trip; the rendering is the nibbles' own. -/
theorem mhEncProperties : Obligations.MhEncProperties := by
  refine ⟨fun _ _ => mhEnc_length, mhEnc_map_lowerChar, fun _ _ _ => mhEnc_injective_up_to_case, fun b => ?_⟩
  rw [mhEnc_hex, modhexOfBytes_eq_modhexText]

end Sys2Proof.Machine
end

section
/-! SUPPORT. The CRC engine as a map: on unsigned numbers it is R111's checksum, over exclusive-or it is additive, and
for a fixed rest of the buffer it is injective in the accumulator and in each byte (R111, R112). -/

namespace Sys2Proof.Machine

/-! The checksum on unsigned numbers (R111) -/

theorem foldl_crcByte_toNat (a : Word16) (b : List Byte) :
    (b.foldl crcByte a).toNat = b.foldl (fun acc x => checksumRound^[8] (acc ^^^ x.toNat)) a.toNat := by
  induction b generalizing a with
  | nil => rfl
  | cons x b ih => rw [List.foldl_cons, ih, crcByte_toNat, List.foldl_cons]

theorem crc_toNat_eq_checksum (b : List Byte) : (b.foldl crcByte crcInit).toNat = checksum b :=
  foldl_crcByte_toNat crcInit b

theorem checksum_lt (b : List Byte) : checksum b < 65536 :=
  crc_toNat_eq_checksum b ▸ (b.foldl crcByte crcInit).isLt

/-- R188: a running command whose body ends in `InvalidLength` answers STATUS 2 with no result. -/
theorem exec_invalidLength {i : Instr} {s s' : State} (h : s.halt = false)
    (hb : bodyOf i s = (s', .error .invalidLength)) : exec i s = .next { s' with obuf := answer 2 s'.sr [] } := by
  rw [exec_error h hb, raise_of_not_fatal s' .invalidLength rfl, ← responseFrame_eq_answer]; rfl

/-! Additivity (R112) -/

/-- R111: a round is a shift and, when the low bit is 1, the feedback constant. -/
theorem crcRound_eq_xor (a : Word16) : crcRound a = a >>> 1 ^^^ (if a.getLsbD 0 then crcPoly else 0) := by
  rw [crcRound]
  split
  · rfl
  · exact BitVec.xor_zero.symm

theorem crcRound_xor (a b : Word16) : crcRound (a ^^^ b) = crcRound a ^^^ crcRound b := by
  have hfeedback : (if (a ^^^ b).getLsbD 0 then crcPoly else 0) =
      (if a.getLsbD 0 then crcPoly else 0) ^^^ (if b.getLsbD 0 then crcPoly else 0) := by
    rw [BitVec.getLsbD_xor]
    cases a.getLsbD 0 <;> cases b.getLsbD 0 <;> decide
  rw [crcRound_eq_xor, crcRound_eq_xor a, crcRound_eq_xor b, BitVec.ushiftRight_xor_distrib, hfeedback]
  ac_rfl

theorem crcRounds_xor (k : Nat) (a b : Word16) : crcRounds k (a ^^^ b) = crcRounds k a ^^^ crcRounds k b := by
  induction k generalizing a b with
  | zero => rfl
  | succ k ih => rw [crcRounds, crcRound_xor, ih]; rfl

theorem crcByte_xor (a b : Word16) (x y : Byte) : crcByte (a ^^^ b) (x ^^^ y) = crcByte a x ^^^ crcByte b y := by
  have hxor : a ^^^ b ^^^ (x ^^^ y).zeroExtend 16 = (a ^^^ x.zeroExtend 16) ^^^ (b ^^^ y.zeroExtend 16) := by
    rw [BitVec.zeroExtend, BitVec.setWidth_xor]; ac_rfl
  rw [crcByte, hxor, crcRounds_xor]; rfl

/-- R112: the engine is additive in its start value and its bytes together. -/
theorem foldl_crcByte_zipWith_xor {l m : List Byte} (h : l.length = m.length) (a b : Word16) :
    (List.zipWith (· ^^^ ·) l m).foldl crcByte (a ^^^ b) = l.foldl crcByte a ^^^ m.foldl crcByte b := by
  induction l generalizing m a b with
  | nil => cases List.length_eq_zero_iff.1 h.symm; rfl
  | cons x l ih =>
    cases m with
    | nil => cases h
    | cons y m =>
      rw [List.zipWith_cons_cons, List.foldl_cons, crcByte_xor, ih (Nat.succ.inj h)]; rfl

/-! Injectivity (R112) -/

/-- R110, R111: a shifted word has its top bit clear and the feedback constant has it set, so they never cancel. -/
theorem eq_zero_of_crcRound_eq_zero {a : Word16} (h : crcRound a = 0) : a = 0 := by
  have hn : checksumRound a.toNat = 0 := by rw [← crcRound_toNat, h]; rfl
  have hlt : a.toNat < 65536 := a.isLt
  apply BitVec.eq_of_toNat_eq
  rw [checksumRound] at hn
  split at hn
  · have hcancel : a.toNat / 2 = 0x8408 := Nat.xor_eq_zero_iff.1 hn
    omega
  · show a.toNat = 0
    omega

theorem crcRound_injective : Function.Injective crcRound := fun a b h =>
  BitVec.xor_eq_zero_iff.1 (eq_zero_of_crcRound_eq_zero (by rw [crcRound_xor, h]; exact BitVec.xor_self))

theorem crcRounds_injective (k : Nat) : Function.Injective (crcRounds k) := by
  induction k with
  | zero => exact Function.injective_id
  | succ k ih => exact ih.comp crcRound_injective

theorem crcByte_injective_acc (x : Byte) : Function.Injective (crcByte · x) := fun _ _ h =>
  (BitVec.xor_left_inj _).1 (crcRounds_injective 8 h)

theorem crcByte_injective_byte (a : Word16) : Function.Injective (crcByte a) := fun x y h => by
  have hext : x.zeroExtend 16 = y.zeroExtend 16 := (BitVec.xor_right_inj _).1 (crcRounds_injective 8 h)
  simpa using congrArg (BitVec.setWidth 8) hext

theorem foldl_crcByte_injective (l : List Byte) : Function.Injective fun a => l.foldl crcByte a := by
  induction l with
  | nil => exact Function.injective_id
  | cons x l ih => exact ih.comp (crcByte_injective_acc x)

/-- R112: a change of any one byte of a buffer changes what the engine ends with. -/
theorem foldl_crcByte_set_ne {l : List Byte} {i : Nat} (hi : i < l.length) {y : Byte} (hy : y ≠ l[i]) (a : Word16) :
    (l.set i y).foldl crcByte a ≠ l.foldl crcByte a := by
  have hl : l = l.take i ++ l[i] :: l.drop (i + 1) := by simp
  rw [List.set_eq_take_append_cons_drop, if_pos hi]
  conv_rhs => rw [hl]
  simp only [List.foldl_append, List.foldl_cons]
  exact fun h => hy (crcByte_injective_byte _ (foldl_crcByte_injective _ h))

theorem flip_bit_ne (x : Byte) {j : Nat} (hj : j < 8) : x ^^^ (1#8 <<< j) ≠ x := by
  intro h
  have hbit := congrArg (·.getLsbD j) h
  simp [hj] at hbit

end Sys2Proof.Machine
end

section
/-! PROOF. The statements about the CRC Engine (41_crc16.md). -/

namespace Sys2Proof.Machine

/-- Settles O26: the accumulator, read as a number, is R111's checksum; the other lengths end the body in an error. -/
theorem crc16Checksum : Obligations.Crc16Checksum := by
  intro s b hrun
  refine ⟨fun hlen => ⟨checksum_lt b, ?_⟩, fun hlen => exec_invalidLength hrun ?_⟩
  · have hresult : (crc16 b).map (fun c => leBytes 2 c.toNat) =
        .ok [BitVec.ofNat 8 (checksum b % 256), BitVec.ofNat 8 (checksum b / 256)] := by
      rw [crc16_of_length hlen, ← leBytes_two, ← crc_toNat_eq_checksum]; rfl
    exact exec_ok hrun (congrArg (Prod.mk s) hresult)
  · rw [bodyOf, crc16_of_wrong_length hlen]; rfl

/-- Settles O27: the start value is the exclusive-or of three copies of itself, so the engine's additivity makes it
affine; its injectivity in each byte makes a flipped bit visible. -/
theorem crc16Affine : Obligations.Crc16Affine := by
  refine ⟨fun a b c ha hb hc => ?_, fun a i j ha hi hj => ?_⟩
  · have hab : (List.zipWith (· ^^^ ·) a b).length = c.length := by simp [ha, hb, hc]
    refine ⟨_, _, _, _, crc16_of_length ha, crc16_of_length hb, crc16_of_length hc,
      crc16_of_length (by rw [List.length_zipWith, hab, hc, Nat.min_self]), ?_⟩
    rw [← foldl_crcByte_zipWith_xor (ha.trans hb.symm), ← foldl_crcByte_zipWith_xor hab]
    rfl
  · have hia : i < a.length := ha ▸ hi
    rw [crc16_of_length ha, crc16_of_length ((List.length_set ..).trans ha)]
    refine fun h => foldl_crcByte_set_ne hia ?_ crcInit (Except.ok.inj h)
    rw [List.getD_eq_getElem a 0 hia]
    exact flip_bit_ne a[i] hj

/-- Settles O28: the engine run on the printed buffers; the statement is closed and finite. -/
theorem crc16PrintedValues : Obligations.Crc16PrintedValues := by
  unfold Obligations.Crc16PrintedValues
  decide +kernel

end Sys2Proof.Machine
end

section
/-! SUPPORT. The cipher's steps by index, its rounds as one fold, the key schedule as one recurrence, and every step as
a bijection of the 16-byte blocks (R121 to R130). -/

namespace Sys2Proof.Machine

/-! The command (R121, R190) -/

theorem raise_sr_of_fatal (s : State) {e : Err} (h : e.fatal = true) : (s.raise e).sr = s.sr ||| 2 := by
  rw [sr_eq, sr_eq, raise_valid, raise_halt, h]
  cases s.valid <;> cases s.halt <;> rfl

/-- R190: a fatal error sets SR.HALT, answers with it set, and changes nothing else. -/
theorem raise_of_fatal (s : State) {e : Err} (h : e.fatal = true) :
    s.raise e = { s with halt := true, obuf := answer e.code.toNat (s.sr ||| 2) [] } := by
  have hobuf := raise_answer s e
  rw [raise_sr_of_fatal s h, (Err.fatal_code_info h).2] at hobuf
  calc s.raise e = { s with halt := s.halt || e.fatal, obuf := (s.raise e).obuf } := rfl
    _ = _ := by rw [hobuf, h, Bool.or_true]

/-- R190: a running command whose body ends in a fatal error. -/
theorem exec_fatal {i : Instr} {s s' : State} {e : Err} (h : s.halt = false) (hb : bodyOf i s = (s', .error e))
    (he : e.fatal = true) :
    exec i s = .next { s' with halt := true, obuf := answer e.code.toNat (s'.sr ||| 2) [] } := by
  rw [exec_error h hb, raise_of_fatal s' he]

/-! The steps of a round by index (R126 to R129) -/

theorem subBytes_getD {s : List Byte} {i : Nat} (hi : i < s.length) :
    (subBytes s).getD i 0 = sbox (s.getD i 0) := by
  simp [subBytes, hi]

theorem addRoundKey_getD {s rk : List Byte} {i : Nat} (hs : i < s.length) (hrk : i < rk.length) :
    (addRoundKey s rk).getD i 0 = s.getD i 0 ^^^ rk.getD i 0 := by
  simp [addRoundKey, hs, hrk]

/-- R127: the index list is the rotation of each row r left by r columns. -/
theorem shiftRowsIndex_getElem? : ∀ r < 4, ∀ c < 4, shiftRowsIndex[r + 4 * c]? = some (r + 4 * ((c + r) % 4)) := by
  decide

theorem shiftRows_getD (s : List Byte) {r c : Nat} (hr : r < 4) (hc : c < 4) :
    (shiftRows s).getD (r + 4 * c) 0 = s.getD (r + 4 * ((c + r) % 4)) 0 := by
  rw [shiftRows, List.getD_eq_getElem?_getD, List.getElem?_map, shiftRowsIndex_getElem? r hr c hc]
  rfl

/-- R128: MixColumns works on each column on its own. -/
theorem mixColumns_getD {s : List Byte} {c j : Nat} (hc : 4 * c + 4 ≤ s.length) (hj : j < 4) :
    (mixColumns s).getD (4 * c + j) 0 =
      (mixColumn (s.getD (4 * c) 0) (s.getD (4 * c + 1) 0) (s.getD (4 * c + 2) 0) (s.getD (4 * c + 3) 0)).getD j 0 := by
  induction s using mixColumns.induct generalizing c with
  | case1 a0 a1 a2 a3 rest ih =>
    cases c with
    | zero =>
      rw [Nat.mul_zero, Nat.zero_add]
      exact List.getD_append (mixColumn a0 a1 a2 a3) (mixColumns rest) 0 j hj
    | succ c =>
      have hrest : 4 * c + 4 ≤ rest.length := by simp at hc; omega
      have hcol : (mixColumn a0 a1 a2 a3).length = 4 := rfl
      have hindex : 4 * (c + 1) + j - 4 = 4 * c + j := by omega
      rw [mixColumns, List.getD_append_right _ _ _ _ (by omega), hcol, hindex, ih hrest]
      rfl
  | case2 s hshort =>
    match s, hc, hshort with
    | a0 :: a1 :: a2 :: a3 :: rest, _, hshort => exact (hshort a0 a1 a2 a3 rest rfl).elim
    | [], hc, _ | [_], hc, _ | [_, _], hc, _ | [_, _, _], hc, _ => simp at hc

/-! Bijections of the 16-byte blocks (R122) -/

/-- R123: the states of the cipher. -/
def aesStates : Set (List Byte) := {s | s.length = 16}

theorem aesStates_finite : aesStates.Finite := List.finite_length_eq Byte 16

/-- There are finitely many blocks, so a step that keeps them apart reaches them all. -/
theorem bijOn_aesStates {f : List Byte → List Byte} (hmaps : Set.MapsTo f aesStates aesStates)
    (hinj : Set.InjOn f aesStates) : Set.BijOn f aesStates aesStates :=
  (aesStates_finite.injOn_iff_bijOn_of_mapsTo hmaps).1 hinj

theorem subBytes_bijOn : Set.BijOn subBytes aesStates aesStates :=
  bijOn_aesStates (fun _ hs => (List.length_map ..).trans hs) subBytes_injective.injOn

theorem shiftRows_bijOn : Set.BijOn shiftRows aesStates aesStates :=
  bijOn_aesStates (fun s _ => shiftRows_length s) fun _ hs _ ht => shiftRows_injective hs ht

theorem mixColumns_length_of_aesState {s : List Byte} (hs : s.length = 16) : (mixColumns s).length = 16 := by
  rw [mixColumns_length, hs]

theorem mixColumns_bijOn : Set.BijOn mixColumns aesStates aesStates :=
  bijOn_aesStates (fun _ => mixColumns_length_of_aesState) fun _ hs _ ht =>
    mixColumns_injective (Dvd.intro 4 hs.symm) (Dvd.intro 4 ht.symm)

theorem addRoundKey_bijOn {rk : List Byte} (hrk : rk.length = 16) :
    Set.BijOn (addRoundKey · rk) aesStates aesStates := by
  refine bijOn_aesStates (fun _ hs => addRoundKey_length hs hrk) fun s hs t ht h => ?_
  have hback : addRoundKey (addRoundKey s rk) rk = addRoundKey (addRoundKey t rk) rk := congrArg (addRoundKey · rk) h
  rwa [addRoundKey_addRoundKey (hs.trans hrk.symm), addRoundKey_addRoundKey (ht.trans hrk.symm)] at hback

theorem aesRound_bijOn (k : List Byte) {r : Nat} (hr : r ≤ 10) :
    Set.BijOn (aesRound (keyExpansion k) · r) aesStates aesStates :=
  (addRoundKey_bijOn (roundKey_length k hr)).comp (mixColumns_bijOn.comp (shiftRows_bijOn.comp subBytes_bijOn))

theorem aesLastRound_bijOn (k : List Byte) : Set.BijOn (aesLastRound (keyExpansion k)) aesStates aesStates :=
  (addRoundKey_bijOn (roundKey_length k (Nat.le_refl 10))).comp (shiftRows_bijOn.comp subBytes_bijOn)

/-! The rounds one by one (R121) -/

/-- R121: the state of the cipher after round r, for r from 0 to 9. -/
def aesState (k p : List Byte) (r : Nat) : List Byte :=
  (List.range' 1 r).foldl (aesRound (keyExpansion k)) (addRoundKey p (roundKey (keyExpansion k) 0))

theorem aesState_succ (k p : List Byte) (r : Nat) :
    aesState k p (r + 1) = aesRound (keyExpansion k) (aesState k p r) (r + 1) := by
  rw [aesState, List.range'_concat, List.foldl_append, Nat.one_mul, Nat.add_comm 1 r]
  rfl

theorem aesState_bijOn (k : List Byte) {r : Nat} (hr : r ≤ 10) : Set.BijOn (aesState k · r) aesStates aesStates := by
  induction r with
  | zero => exact addRoundKey_bijOn (roundKey_length k hr)
  | succ r ih =>
    have hround : (aesState k · (r + 1)) = (aesRound (keyExpansion k) · (r + 1)) ∘ (aesState k · r) :=
      funext fun p => aesState_succ k p r
    rw [hround]
    exact (aesRound_bijOn k hr).comp (ih (Nat.le_of_succ_le hr))

theorem aesBlock_eq_aesLastRound (k p : List Byte) :
    aesBlock (keyExpansion k) p = aesLastRound (keyExpansion k) (aesState k p 9) := rfl

/-- R122: with an expanded key the cipher is a bijection. -/
theorem aesBlock_bijOn (k : List Byte) : Set.BijOn (aesBlock (keyExpansion k)) aesStates aesStates := by
  have hrounds : aesBlock (keyExpansion k) = aesLastRound (keyExpansion k) ∘ (aesState k · 9) :=
    funext (aesBlock_eq_aesLastRound k)
  rw [hrounds]
  exact (aesLastRound_bijOn k).comp (aesState_bijOn k (by decide))

/-! The key schedule (R129, R130) -/

theorem take_drop_eq_map_getD {α : Type} {l : List α} {n m : Nat} (d : α) (h : n + m ≤ l.length) :
    (l.drop n).take m = (List.range m).map fun j => l.getD (n + j) d := by
  apply List.ext_getElem
  · simp; omega
  · intro i _ hi
    have hm : i < m := by simpa using hi
    simp [show n + i < l.length by omega]

/-- Four consecutive entries of a list. -/
theorem take_four_drop {α : Type} {l : List α} {n : Nat} (d : α) (h : n + 4 ≤ l.length) :
    (l.drop n).take 4 = [l.getD n d, l.getD (n + 1) d, l.getD (n + 2) d, l.getD (n + 3) d] :=
  take_drop_eq_map_getD d h

/-- R130: w[i] of the expanded key. -/
def expandedWord (k : List Byte) (i : Nat) : KeyWord := (keyExpansion k).getD i ⟨0, 0, 0, 0⟩

theorem keyExpansion_eq_map (k : List Byte) : keyExpansion k = (List.range 44).map (expandedWord k) := by
  apply List.ext_getElem
  · simp [keyExpansion_length]
  · intro i hi _
    simp [expandedWord, hi]

/-- R130: in a run of words made by the expansion, each is made from those four and one place before it. -/
theorem expandFrom_getD {n i j : Nat} (hj : j < n) (a b c d z : KeyWord) :
    (a :: b :: c :: d :: expandFrom n i a b c d).getD (j + 4) z =
      keyWordAt (i + j) ((a :: b :: c :: d :: expandFrom n i a b c d).getD j z)
        ((a :: b :: c :: d :: expandFrom n i a b c d).getD (j + 3) z) := by
  induction j generalizing n i a b c d with
  | zero =>
    cases n with
    | zero => cases hj
    | succ n => rfl
  | succ j ih =>
    cases n with
    | zero => cases hj
    | succ n =>
      have htail := ih (i := i + 1) (Nat.lt_of_succ_lt_succ hj) b c d (keyWordAt i a d)
      rw [Nat.add_right_comm, Nat.add_assoc] at htail
      exact htail

theorem expandedWord_key (k : List Byte) {i : Nat} (hi : i < 4) :
    expandedWord k i = ⟨k.getD (4 * i) 0, k.getD (4 * i + 1) 0, k.getD (4 * i + 2) 0, k.getD (4 * i + 3) 0⟩ := by
  match i, hi with
  | 0, _ | 1, _ | 2, _ | 3, _ => rfl

theorem expandedWord_recurrence (k : List Byte) {i : Nat} (h4 : 4 ≤ i) (h44 : i < 44) :
    expandedWord k i = keyWordAt i (expandedWord k (i - 4)) (expandedWord k (i - 1)) := by
  obtain ⟨j, rfl⟩ := Nat.exists_eq_add_of_le' h4
  have hword := expandFrom_getD (i := 4) (show j < 40 by omega) (expandedWord k 0) (expandedWord k 1)
    (expandedWord k 2) (expandedWord k 3) ⟨0, 0, 0, 0⟩
  rw [Nat.add_comm 4 j] at hword
  exact hword

theorem keyWordAt_of_mod_ne_zero {i : Nat} (h : i % 4 ≠ 0) (w4 w1 : KeyWord) :
    keyWordAt i w4 w1 = xorWord w4 w1 := if_neg h

theorem keyWordAt_of_mod_eq_zero {i : Nat} (h : i % 4 = 0) (w4 w1 : KeyWord) :
    keyWordAt i w4 w1 = xorWord w4 ⟨sbox w1.b1 ^^^ rcon (i / 4), sbox w1.b2, sbox w1.b3, sbox w1.b0⟩ := if_pos h

theorem roundKey_keyExpansion (k : List Byte) {r : Nat} (hr : r ≤ 10) :
    roundKey (keyExpansion k) r =
      wordBytes (expandedWord k (4 * r)) ++ wordBytes (expandedWord k (4 * r + 1)) ++
        wordBytes (expandedWord k (4 * r + 2)) ++ wordBytes (expandedWord k (4 * r + 3)) := by
  rw [roundKey, take_four_drop ⟨0, 0, 0, 0⟩ (by rw [keyExpansion_length]; omega)]
  simp [expandedWord]

theorem wordBytes_expandedWord_key {k : List Byte} (hk : k.length = 16) {i : Nat} (hi : i < 4) :
    wordBytes (expandedWord k i) = (k.drop (4 * i)).take 4 := by
  rw [expandedWord_key k hi, take_four_drop 0 (by omega)]
  rfl

/-- R129: round key 0 is the key. -/
theorem roundKey_zero {k : List Byte} (hk : k.length = 16) : roundKey (keyExpansion k) 0 = k := by
  rw [roundKey_keyExpansion k (Nat.zero_le 10), wordBytes_expandedWord_key hk (by decide),
    wordBytes_expandedWord_key hk (by decide), wordBytes_expandedWord_key hk (by decide),
    wordBytes_expandedWord_key hk (by decide)]
  have h4 : (k.drop 0).take 4 ++ (k.drop 4).take 4 = k.take 8 := (List.take_add (i := 4) (j := 4)).symm
  have h8 : k.take 8 ++ (k.drop 8).take 4 = k.take 12 := List.take_add.symm
  have h12 : k.take 12 ++ (k.drop 12).take 4 = k.take 16 := List.take_add.symm
  calc _ = k.take 16 := by rw [h4, h8, h12]
    _ = k := List.take_of_length_le (Nat.le_of_eq hk)

/-! The field and the S-box (R124, R125) -/

theorem gmul_one (a : Byte) : gmul a 1 = a := BitVec.zero_xor

theorem gmul_two (a : Byte) : gmul a 2 = xtime a := BitVec.zero_xor

theorem gmul_three (a : Byte) : gmul a 3 = xtime a ^^^ a := by
  have hloop : gmul a 3 = 0#8 ^^^ a ^^^ xtime a := rfl
  rw [hloop, BitVec.zero_xor, BitVec.xor_comm]

/-- R125: the affine map that the S-box applies to the field inverse. -/
def sboxAffine (b : Byte) : Byte :=
  b ^^^ b.rotateLeft 1 ^^^ b.rotateLeft 2 ^^^ b.rotateLeft 3 ^^^ b.rotateLeft 4 ^^^ 0x63

/-- The affine map read backwards. -/
def sboxAffineInverse (v : Byte) : Byte := v.rotateLeft 1 ^^^ v.rotateLeft 3 ^^^ v.rotateLeft 6 ^^^ 0x05

theorem sboxAffine_sboxAffineInverse (v : Byte) : sboxAffine (sboxAffineInverse v) = v := by
  revert v; decide +kernel

/-- R125: what the S-box holds before its affine map, which is the inverse in the field, and 0 for 0. -/
def fieldInverse (v : Byte) : Byte := sboxAffineInverse (sbox v)

theorem fieldInverse_zero : fieldInverse 0 = 0 := by decide

theorem gmul_fieldInverse {v : Byte} : v ≠ 0 → gmul v (fieldInverse v) = 1 := by
  revert v; decide +kernel

theorem sbox_eq_sboxAffine (v : Byte) : sbox v = sboxAffine (fieldInverse v) :=
  (sboxAffine_sboxAffineInverse (sbox v)).symm

end Sys2Proof.Machine
end

section
/-! PROOF. The statements about the AES-128 cipher core (42_aes128.md). -/

namespace Sys2Proof.Machine

/-- Settles O29: the two lengths decide how the body ends, and both errors are fatal. -/
theorem aesencEncryptsOrHalts : Obligations.AesencEncryptsOrHalts := by
  intro s k p hrun
  refine ⟨fun hk hp => ?_, fun hk => ?_, fun hk hp => ?_⟩
  · have hok := aes128Enc_of_lengths hk hp
    exact ⟨_, hok, aesBlock_length k p, exec_ok hrun (congrArg (Prod.mk s) hok)⟩
  · have herror := aes128Enc_of_wrong_key (p := p) hk
    exact exec_fatal (i := .aesenc k p) hrun (congrArg (Prod.mk s) herror) rfl
  · exact exec_fatal (i := .aesenc k p) hrun (congrArg (Prod.mk s) (aes128Enc_of_wrong_block hk hp)) rfl

/-- Settles O31: the states are the prefixes of the fold over the nine full rounds. -/
theorem aesRoundStructure : Obligations.AesRoundStructure := by
  intro k p hk hp
  refine ⟨aesState k p, rfl, fun r h1 _ => ?_, fun r h9 => (aesState_bijOn k (by omega)).mapsTo hp, ?_⟩
  · obtain ⟨r, rfl⟩ := Nat.exists_eq_add_of_le' h1
    exact aesState_succ k p r
  · rw [aes128Enc_of_lengths hk hp, aesBlock_eq_aesLastRound]; rfl

/-- Settles O32: one lemma for each of the four steps. -/
theorem aesStepsByIndex : Obligations.AesStepsByIndex := by
  intro s rk hs hrk
  refine ⟨fun i hi => subBytes_getD (hs ▸ hi), fun r c => shiftRows_getD s, fun c hc => ?_,
    fun i hi => addRoundKey_getD (hs ▸ hi) (hrk ▸ hi), (List.length_map ..).trans hs, shiftRows_length s,
    mixColumns_length_of_aesState hs, addRoundKey_length hs hrk⟩
  have hcolumn : 4 * c + 4 ≤ s.length := by omega
  exact ⟨mixColumns_getD (j := 0) hcolumn (by decide), mixColumns_getD hcolumn (by decide),
    mixColumns_getD hcolumn (by decide), mixColumns_getD hcolumn (by decide)⟩

/-- Settles O34: the words are the expanded key's own, and the recurrence is `keyWordAt` in its two cases. -/
theorem keyScheduleRecurrence : Obligations.KeyScheduleRecurrence := by
  refine ⟨fun k hk => ⟨expandedWord k, keyExpansion_eq_map k, fun i => expandedWord_key k, fun i h4 h44 hmod => ?_,
    fun i h4 h44 hmod => ?_, fun r => roundKey_keyExpansion k, roundKey_zero hk⟩, by decide⟩
  · rw [expandedWord_recurrence k h4 h44, keyWordAt_of_mod_ne_zero hmod]
  · rw [expandedWord_recurrence k h4 h44, keyWordAt_of_mod_eq_zero hmod]

/-- Settles O35: each step is a bijection of the blocks, and so is their composition. -/
theorem aesIsABijection : Obligations.AesIsABijection := by
  intro k hk
  refine ⟨fun p q hp hq h => ?_, fun c hc => ?_⟩
  · rw [aes128Enc_of_lengths hk hp, aes128Enc_of_lengths hk hq] at h
    exact (aesBlock_bijOn k).injOn hp hq (Except.ok.inj h)
  · obtain ⟨p, hp, hblock⟩ := (aesBlock_bijOn k).surjOn hc
    exact ⟨p, hp, hblock ▸ aes128Enc_of_lengths hk hp⟩

/-- Settles O30: the cipher run on the two printed blocks; the statement is closed. -/
theorem aesPublishedVectors : Obligations.AesPublishedVectors := by
  unfold Obligations.AesPublishedVectors
  decide +kernel

/-- Settles O33: the affine map read backwards from the S-box gives the inverse in the field. -/
theorem sboxFromItsDefinition : Obligations.SboxFromItsDefinition :=
  ⟨fun a => ⟨gmul_one a, gmul_two a, gmul_three a⟩, by decide, by decide,
    fun v => ⟨fieldInverse v, fun h => by rw [h, fieldInverse_zero], gmul_fieldInverse, sbox_eq_sboxAffine v⟩⟩

end Sys2Proof.Machine
end

section
/-! SUPPORT. The pipeline in the spec's own terms: `Generate` is the modhex of PUBID and of the encrypted payload, and
each of its steps keeps different inputs apart (R140 to R148). -/

namespace Sys2Proof.Machine

/-! Little-endian bytes (R10) -/

theorem leBytes_succ (k v : Nat) : leBytes (k + 1) v = BitVec.ofNat 8 v :: leBytes k (v / 256) := by
  have hshift (i : Nat) : v >>> (8 * (i + 1)) = (v / 256) >>> (8 * i) := by
    rw [Nat.mul_add, Nat.add_comm, Nat.shiftRight_add, Nat.shiftRight_eq_div_pow v]
  simp [leBytes, List.range_succ_eq_map, hshift]

/-- `le_3` written out, as R140 lays out TMR. -/
theorem leBytes_three (v : Nat) :
    leBytes 3 v = [BitVec.ofNat 8 (v % 256), BitVec.ofNat 8 (v / 256 % 256), BitVec.ofNat 8 (v / 65536)] := by
  have hlow : BitVec.ofNat 8 v = BitVec.ofNat 8 (v % 256) := BitVec.eq_of_toNat_eq (by simp)
  rw [leBytes_succ, leBytes_two, Nat.div_div_eq_div_mul, hlow]

/-- `le_k` loses nothing of a register of k bytes. -/
theorem leBytes_inj {k v w : Nat} (hv : v < 2 ^ (8 * k)) (hw : w < 2 ^ (8 * k)) (h : leBytes k v = leBytes k w) :
    v = w := by
  induction k generalizing v w with
  | zero => omega
  | succ k ih =>
    rw [leBytes_succ, leBytes_succ] at h
    obtain ⟨hlow, hhigh⟩ := List.cons.inj h
    have hmod : v % 256 = w % 256 := by simpa using congrArg BitVec.toNat hlow
    have hpow : 2 ^ (8 * (k + 1)) = 2 ^ (8 * k) * 256 := Nat.pow_add 2 (8 * k) 8
    have hdiv : v / 256 = w / 256 := ih (by omega) (by omega) hhigh
    omega

theorem leBytes_toNat_injective (k : Nat) : Function.Injective fun a : BitVec (8 * k) => leBytes k a.toNat :=
  fun a b h => BitVec.eq_of_toNat_eq (leBytes_inj a.isLt b.isLt h)

/-! The buffer and the payload (R140, R141) -/

theorem plaintext_eq_plainBuffer (k : Token) : plaintext k = plainBuffer k := by
  have hsctr : leBytes 1 k.sctr.toNat = [k.sctr] := by simp [leBytes]
  rw [plaintext, leBytes_two, leBytes_two, leBytes_three, hsctr, plainBuffer]
  simp only [List.append_assoc, List.cons_append, List.nil_append]

theorem payload_eq (k : Token) :
    payload k = plaintext k ++ leBytes 2 ((plaintext k).foldl crcByte crcInit).toNat := by
  rw [payload, crc_toNat_eq_checksum, leBytes_two, plaintext_eq_plainBuffer]

theorem payload_length (k : Token) : (payload k).length = 16 := by
  rw [payload_eq, List.length_append, plaintext_length, leBytes_length]

/-- R148: the payload holds SECID, CTR, TMR, SCTR and RND in clear positions. -/
theorem registers_eq_of_payload_eq {k l : Token} (h : payload k = payload l) :
    k.id.secid = l.id.secid ∧ k.ctr = l.ctr ∧ k.tmr = l.tmr ∧ k.sctr = l.sctr ∧ k.rnd = l.rnd := by
  rw [payload_eq, payload_eq] at h
  have hplain : plaintext k = plaintext l :=
    (List.append_inj h ((plaintext_length k).trans (plaintext_length l).symm)).1
  rw [plaintext, plaintext] at hplain
  obtain ⟨hplain, hrnd⟩ := List.append_inj' hplain (by simp [leBytes_length])
  obtain ⟨hplain, hsctr⟩ := List.append_inj' hplain (by simp [leBytes_length])
  obtain ⟨hplain, htmr⟩ := List.append_inj' hplain (by simp [leBytes_length])
  obtain ⟨hsecid, hctr⟩ := List.append_inj' hplain (by simp [leBytes_length])
  exact ⟨Vector.toList_inj.1 hsecid, leBytes_toNat_injective 2 hctr, leBytes_toNat_injective 3 htmr,
    leBytes_toNat_injective 1 hsctr, leBytes_toNat_injective 2 hrnd⟩

/-! The text (R143, R144) -/

theorem modhexText_length (b : List Byte) : (modhexText b).length = 2 * b.length := by
  rw [← modhexOfBytes_eq_modhexText, modhexOfBytes_length]

theorem mhDec_modhexText (b : List Byte) : mhDec (modhexText b) = .ok (hex b) := by
  rw [← modhexOfBytes_eq_modhexText, mhDec_modhexOfBytes]

theorem modhexText_injective : Function.Injective modhexText := fun a b h => by
  have hhex : hex a = hex b := Except.ok.inj (by rw [← mhDec_modhexText, h, mhDec_modhexText])
  exact Option.some.inj (by rw [← unhex_hex, hhex, unhex_hex])

/-- R100: a modhex rendering has letters of the alphabet only, since MhDec accepts it. -/
theorem mem_alphabet_of_mem_modhexText {b : List Byte} {ch : Byte} (h : ch ∈ modhexText b) :
    ∃ o, (ch, o) ∈ modhexToHex := by
  by_contra hout
  exact not_hasCharOutside_of_mapsBy (mhDec_eq_ok_iff.1 (mhDec_modhexText b)) ⟨ch, h, not_exists.1 hout⟩

/-- R142, R144: the text that `Generate` answers. -/
def otpOf (k : Token) : List Byte :=
  modhexText k.id.pubid.toList ++ modhexText (aesBlock (keyExpansion k.id.key.toList) (payload k))

theorem generate_eq_otpOf (k : Token) : generate k = .ok (otpOf k) := by
  rw [generate_eq, ← payload_eq, modhexOfBytes_eq_modhexText, modhexOfBytes_eq_modhexText, otpOf]

theorem runPipeline_eq_otpOf (k : Token) : runPipeline k = .ok (otpOf k) := by
  rw [runPipeline_eq_generate, generate_eq_otpOf]

theorem otpOf_length (k : Token) : (otpOf k).length = 44 := runPipeline_length (runPipeline_eq_otpOf k)

/-- R148: the text's first 12 characters show PUBID, and under one KEY the others show the payload. -/
theorem pubid_payload_eq_of_otpOf_eq {k l : Token} (hkey : k.id.key = l.id.key) (h : otpOf k = otpOf l) :
    k.id.pubid = l.id.pubid ∧ payload k = payload l := by
  rw [otpOf, otpOf, hkey] at h
  obtain ⟨hpub, hblock⟩ := List.append_inj h (by simp [modhexText_length])
  exact ⟨Vector.toList_inj.1 (modhexText_injective hpub),
    (aesBlock_bijOn l.id.key.toList).injOn (payload_length k) (payload_length l) (modhexText_injective hblock)⟩

/-! The commands that need a token (R193) -/

theorem sr_of_token {s : State} {k : Token} (hrun : s.halt = false) (h : s.held = .token k) : s.sr = 1 := by
  rw [sr_eq, valid_of_token h, hrun]

theorem sr_of_noToken {s : State} (hrun : s.halt = false) (h : s.held = .noToken) : s.sr = 0 := by
  rw [sr_eq, valid_of_noToken h, hrun]

/-- R193: a running command that finds no token answers `03 02 00 00` and halts. -/
theorem exec_of_noToken {i : Instr} {s : State} (hrun : s.halt = false) (h : s.held = .noToken)
    (hbody : bodyOf i s = (s, .error .invalidState)) :
    exec i s = .next { s with halt := true, obuf := [3, 2, 0, 0] } := by
  rw [exec_fatal hrun hbody rfl, sr_of_noToken hrun h]; rfl

end Sys2Proof.Machine
end

section
/-! PROOF. The statements about the OTP Cipher Pipeline (43_otp_pipeline.md). -/

namespace Sys2Proof.Machine

/-- Settles O36: the layout of R140 is the buffer, and the engine's checksum is R111's. -/
theorem plaintextLayout : Obligations.PlaintextLayout := by
  intro k
  refine ⟨plaintext_eq_plainBuffer k, plaintext_length k, ?_, payload_length k⟩
  rw [crc16_of_length (plaintext_length k), plaintext_eq_plainBuffer, ← crc_toNat_eq_checksum, BitVec.ofNat_toNat,
    BitVec.setWidth_eq]

/-- Settles O37: the ciphertext is the cipher's block under KEY, since the key and the payload are 16 bytes each. -/
theorem otpText : Obligations.OtpText := by
  intro k
  have hkey : k.id.key.toList.length = 16 := k.id.key.length_toList
  have hlen : (aesBlock (keyExpansion k.id.key.toList) (payload k)).length = 16 := aesBlock_length ..
  refine ⟨_, aes128Enc_of_lengths hkey (payload_length k), hlen, generate_eq_otpOf k, runPipeline_eq_otpOf k, ?_, ?_,
    fun ch hch => ?_⟩
  · rw [modhexText_length, Vector.length_toList]
  · rw [modhexText_length, hlen]
  · exact (List.mem_append.1 hch).elim mem_alphabet_of_mem_modhexText mem_alphabet_of_mem_modhexText

/-- Settles O38: with a token held the body is the pipeline, which always answers; with none it is `InvalidState`. -/
theorem genAnswersOtp : Obligations.GenAnswersOtp := by
  intro s hrun
  refine ⟨fun k hk => ⟨otpOf k, generate_eq_otpOf k, otpOf_length k, ?_⟩, fun hnone => ?_⟩
  · have hbody : bodyOf .gen s = (s, .ok (otpOf k)) := by rw [bodyOf, withToken_token hk, runPipeline_eq_otpOf]
    rw [exec_ok hrun hbody, sr_of_token hrun hk]
  · exact exec_of_noToken hrun hnone (by rw [bodyOf, withToken_noToken hnone])

/-- Settles O40: the text shows PUBID and the payload, and the payload shows the other registers. -/
theorem otpTextDeterminesPayload : Obligations.OtpTextDeterminesPayload := by
  rintro ⟨⟨pubid, key, secid⟩, ctr, sctr, tmr, rnd⟩ l text hkey hk hl
  have htext : otpOf _ = otpOf l :=
    Except.ok.inj ((generate_eq_otpOf _).symm.trans (hk.trans (hl.symm.trans (generate_eq_otpOf l))))
  obtain ⟨rfl, hpayload⟩ := pubid_payload_eq_of_otpOf_eq hkey htext
  obtain ⟨rfl, rfl, rfl, rfl, rfl⟩ := registers_eq_of_payload_eq hpayload
  cases hkey
  rfl

/-- Settles O39: the statement's registers are those of one token, and the pipeline is run on it. -/
theorem knownVector : Obligations.KnownVector := by
  rintro ⟨⟨pubid, key, secid⟩, ctr, sctr, tmr, rnd⟩ hpub hkey hsec rfl rfl rfl rfl
  obtain rfl : pubid = Vector.replicate 6 0 := Vector.toList_inj.1 (hpub.trans Vector.toList_replicate.symm)
  obtain rfl : key = Vector.replicate 16 0 := Vector.toList_inj.1 (hkey.trans Vector.toList_replicate.symm)
  obtain rfl : secid = Vector.replicate 6 0 := Vector.toList_inj.1 (hsec.trans Vector.toList_replicate.symm)
  decide +kernel

end Sys2Proof.Machine
end

section
/-! SUPPORT. What a command that runs a transition leaves, as one state, what the other commands leave alone, and the
text of a press (44_transitions.md R150 to R155). -/

namespace Sys2Proof.Machine

theorem exists_token_of_valid {s : State} (h : s.valid = true) : ∃ k, s.held = .token k := by
  obtain ⟨_, _, _, hvalid⟩ := statusRegisterBits s
  exact hvalid.1 h

/-! What every command leaves alone (R36, R51, R153) -/

/-- R36, R51: a command writes neither IBUF nor the host's moves. -/
theorem exec_frame {i : Instr} {s t : State} (h : exec i s = .next t) : t.ibuf = s.ibuf ∧ t.host = s.host := by
  rcases exec_next_cases h with ⟨e, _, rfl, _⟩ | ⟨s', v, _, hbody, _, rfl⟩
  · exact ⟨rfl, rfl⟩
  · obtain ⟨_, hibuf, _, hhost⟩ := bodyOf_frame i s
    rw [hbody] at hibuf hhost
    exact ⟨hibuf, hhost⟩

/-- R153: a command that is not a transition leaves the token registers as they were, whether or not it ends in an
error. -/
theorem exec_held_of_quiet {i : Instr} {s t : State} (hq : isQuiet i = true) (h : exec i s = .next t) :
    t.held = s.held := by
  rcases exec_next_cases h with ⟨e, _, rfl, _⟩ | ⟨s', v, _, hbody, _, rfl⟩
  · rfl
  · have hs : s' = s := (congrArg Prod.fst hbody).symm.trans (bodyOf_quiet hq s)
    rw [hs]

/-! The transitions as commands (R151 to R155) -/

/-- R78, R151 to R155: a running command whose body ends in a transition holds its token and answers OK, SR = VALID. -/
theorem exec_hold {i : Instr} {s : State} {r : Token × Ports} {v : List Byte} (hrun : s.halt = false)
    (hbody : bodyOf i s = (s.hold r, .ok v)) :
    exec i s = .next { s with held := .token r.1, ports := r.2, obuf := answer 0 1 v } := by
  have hsr : (s.hold r).sr = 1 := sr_of_token hrun rfl
  rw [exec_ok hrun hbody, hsr]; rfl

theorem exec_insert_of_token {s : State} {k : Token} (hrun : s.halt = false) (hk : s.held = .token k) :
    exec .insert s = .next { s with
      held := .token (insertion k.id k.ctr s.ports).1, ports := (insertion k.id k.ctr s.ports).2,
      obuf := answer 0 1 [] } :=
  exec_hold hrun (by rw [bodyOf, withToken_token hk])

/-- R152: the registers and the ports after a press: SCTR advanced, then Sanitize. -/
def press (k : Token) (p : Ports) : Token × Ports := sanitize k.id k.ctr (k.sctr + 1) p

theorem press_sctr (k : Token) (p : Ports) : (press k p).1.sctr = k.sctr + 1 := by
  rw [press, sanitize_eq]

/-- R152: BUTTON leaves the registers of a press and answers their text. -/
theorem exec_button_of_token {s : State} {k : Token} (hrun : s.halt = false) (hk : s.held = .token k) :
    exec .button s = .next { s with
      held := .token (press k s.ports).1, ports := (press k s.ports).2,
      obuf := answer 0 1 (otpOf (press k s.ports).1) } :=
  exec_hold hrun (by rw [bodyOf, withToken_token hk, runPipeline_eq_otpOf]; rfl)

/-- What a second press reads of the state a press has left. -/
theorem button_leaves {s t : State} {k : Token} (hrun : s.halt = false) (hk : s.held = .token k)
    (h : exec .button s = .next t) :
    t.halt = false ∧ t.held = .token (press k s.ports).1 ∧ t.obuf = answer 0 1 (otpOf (press k s.ports).1) := by
  cases (exec_button_of_token hrun hk).symm.trans h
  exact ⟨hrun, rfl, rfl⟩

/-- R148, R154: a press keeps KEY and changes SCTR, so the text of its registers is another than before. -/
theorem otpOf_ne_otpOf_press (k : Token) (p : Ports) : otpOf k ≠ otpOf (press k p).1 := by
  intro htext
  have hkey : k.id.key = (press k p).1.id.key := rfl
  obtain ⟨_, hpayload⟩ := pubid_payload_eq_of_otpOf_eq hkey htext
  obtain ⟨_, _, _, hsctr, _⟩ := registers_eq_of_payload_eq hpayload
  rw [press_sctr] at hsctr
  bv_omega

/-- R155: the identity CREATE holds is the three draws in order. -/
theorem drawIdentity_eq {p p1 p2 p3 : Ports} {pub : Vector Byte 6} {key : Vector Byte 16} {sec : Vector Byte 6}
    (hpub : p.drawBytes 6 = (pub, p1)) (hkey : p1.drawBytes 16 = (key, p2)) (hsec : p2.drawBytes 6 = (sec, p3)) :
    drawIdentity p = (⟨pub, key, sec⟩, p3) := by
  simp only [drawIdentity, hpub, hkey, hsec]

end Sys2Proof.Machine
end

section
/-! PROOF. The statements about the State Transition Engine and CREATE (44_transitions.md). -/

namespace Sys2Proof.Machine

/-- Settles O42: a 24-bit register keeps the low 24 bits of the tick count by itself. -/
theorem sanitizeRefreshes : Obligations.SanitizeRefreshes := by
  intro id ctr sctr p
  have htmr (n : Nat) : BitVec.ofNat 24 (n % 2 ^ 24) = BitVec.ofNat 24 n := BitVec.eq_of_toNat_eq (by simp)
  rw [sanitize_eq, htmr]

/-- Settles O43: with a token held INSERT is the insertion event, whose sum wraps at 16 bits. -/
theorem insertAdvancesCounter : Obligations.InsertAdvancesCounter := by
  intro s hrun
  refine ⟨fun k hk => ?_, fun hnone => exec_of_noToken hrun hnone (by rw [bodyOf, withToken_noToken hnone])⟩
  have hctr : k.ctr + 1 = BitVec.ofNat 16 ((k.ctr.toNat + 1) % 65536) := BitVec.eq_of_toNat_eq (by simp)
  rw [exec_insert_of_token hrun hk, insertion, sanitizeRefreshes, hctr]

/-- Settles O44: with a token held BUTTON is a press, whose sum wraps at 8 bits, and the text of its registers. -/
theorem buttonAdvancesSession : Obligations.ButtonAdvancesSession := by
  intro s hrun
  refine ⟨fun k hk => ⟨_, otpOf_length _, generate_eq_otpOf _, ?_⟩,
    fun hnone => exec_of_noToken hrun hnone (by rw [bodyOf, withToken_noToken hnone])⟩
  have hsctr : k.sctr + 1 = BitVec.ofNat 8 ((k.sctr.toNat + 1) % 256) := BitVec.eq_of_toNat_eq (by simp)
  rw [exec_button_of_token hrun hk, press, sanitizeRefreshes, hsctr]

/-- Settles O45: the insertion event starts from CTR = 0 and from the ports that the identity's draws leave. -/
theorem createDrawsIdentity : Obligations.CreateDrawsIdentity := by
  intro s pub key sec p1 p2 p3 p4 p5 r c hrun hpub hkey hsec hr hc
  have hbody : bodyOf .create s = (s.hold (insertion ⟨pub, key, sec⟩ 0 p3), .ok []) := by
    rw [bodyOf, drawIdentity_eq hpub hkey hsec]
  rw [exec_hold hrun hbody, insertion, sanitizeRefreshes, hr, hc, zero_add]

/-- Settles O48: the commands that are not transitions are the quiet ones. -/
theorem onlyTransitionsChangeTheToken : Obligations.OnlyTransitionsChangeTheToken := by
  intro i s t h
  obtain ⟨hibuf, hhost⟩ := exec_frame h
  obtain ⟨hvalid, _⟩ := exec_keepsBits h
  refine ⟨hibuf, hhost, hvalid, ?_⟩
  cases i with
  | insert | button | create | load => trivial
  | mhenc | mhdec | crc16 | aesenc | gen | save => exact exec_held_of_quiet rfl h

/-- Settles O51: the second press starts from the registers of the first, which the host and the ports cannot reach. -/
theorem consecutivePressesDiffer : Obligations.ConsecutivePressesDiffer := by
  intro s t u p f h hrun hvalid ht hu
  obtain ⟨k, hk⟩ := exists_token_of_valid hvalid
  obtain ⟨hrun', hl, htobuf⟩ := button_leaves hrun hk ht
  obtain ⟨_, hm, huobuf⟩ := button_leaves (s := { t with ports := p, ibuf := f, host := h }) hrun' hl hu
  refine ⟨fun hobuf => ?_, k, _, _, hk, hl, hm, press_sctr .., press_sctr ..⟩
  rw [htobuf, huobuf] at hobuf
  obtain ⟨_, _, htext⟩ := answer_injective (by decide) (by decide) hobuf
  exact otpOf_ne_otpOf_press _ p htext

end Sys2Proof.Machine
end

section
/-! SUPPORT. What each part of the record shows, as the grammar says it: numerals, hex and modhex values, field lines
and the five lines, each as one equivalence between the parser's function and the text it accepts (45_persistence.md R165 to
R177). -/

namespace Sys2Proof.Machine

/-! Numerals (R173, R175) -/

theorem decimalDigit_toNat (v : Nat) : (decimalDigit v).toNat = 0x30 + v % 10 := by
  rw [decimalDigit, BitVec.toNat_ofNat]
  omega

theorem numeral_append_digit (v : List Byte) (ch : Byte) :
    numeral (v ++ [ch]) = 10 * numeral v + (ch.toNat - 0x30) := by
  rw [numeral, List.foldl_append]; rfl

theorem isDigits_decimalLoop (fuel v : Nat) : IsDigits (decimalLoop fuel v) := by
  have hdigit (n : Nat) : 0x30 ≤ (decimalDigit n).toNat ∧ (decimalDigit n).toNat ≤ 0x39 := by
    rw [decimalDigit_toNat]; omega
  induction fuel generalizing v with
  | zero => exact List.forall_mem_nil _
  | succ fuel ih =>
    rw [decimalLoop]
    split
    · exact List.forall_mem_singleton.2 (hdigit v)
    · exact List.forall_mem_append.2 ⟨ih _, List.forall_mem_singleton.2 (hdigit v)⟩

/-- R175: with a digit for every decimal place of v the numeral's value is v. -/
theorem numeral_decimalLoop {fuel v : Nat} (h : v < 10 ^ fuel) : numeral (decimalLoop fuel v) = v := by
  induction fuel generalizing v with
  | zero => exact (Nat.lt_one_iff.1 h).symm
  | succ fuel ih =>
    rw [decimalLoop]
    split
    · rw [← List.nil_append [_], numeral_append_digit, decimalDigit_toNat, numeral, List.foldl_nil]
      omega
    · rw [numeral_append_digit, decimalDigit_toNat, ih (Nat.div_lt_of_lt_mul (by rwa [← Nat.pow_succ']))]
      omega

/-- R175: the numeral of a positive number has no leading zero. -/
theorem decimalLoop_leading_digit {fuel v : Nat} (hpos : 0 < v) (h : v < 10 ^ fuel) :
    ∃ d rest, decimalLoop fuel v = d :: rest ∧ d ≠ 0x30 := by
  induction fuel generalizing v with
  | zero => exact absurd h (by simpa using Nat.ne_of_gt hpos)
  | succ fuel ih =>
    rw [decimalLoop]
    split
    · next hv =>
      refine ⟨_, _, rfl, fun hzero => ?_⟩
      have hdigit : 0x30 = 0x30 + v % 10 := (congrArg BitVec.toNat hzero).symm.trans (decimalDigit_toNat v)
      omega
    · next hv =>
      obtain ⟨d, rest, hloop, hd⟩ := ih (v := v / 10) (by omega) (Nat.div_lt_of_lt_mul (by rwa [← Nat.pow_succ']))
      exact ⟨d, rest ++ [decimalDigit v], by rw [hloop, List.cons_append], hd⟩

/-- R175: `dec` writes the shortest numeral of every number of at most five digits. -/
theorem isShortestNumeral_decimal {v : Nat} (h : v < 10 ^ 5) : IsShortestNumeral (decimal v) v := by
  refine ⟨isDigits_decimalLoop 5 v, numeral_decimalLoop h, (decimal_length v).1, (decimal_length v).2, fun hhead => ?_⟩
  rcases Nat.eq_zero_or_pos v with rfl | hpos
  · rfl
  · obtain ⟨d, rest, hloop, hd⟩ := decimalLoop_leading_digit hpos h
    rw [decimal, hloop] at hhead
    exact absurd (Option.some.inj hhead) hd

/-- R173: the text of a counter's value. -/
def IsCounter (digits : List Byte) (ctr : Word16) : Prop :=
  IsDigits digits ∧ 1 ≤ digits.length ∧ digits.length ≤ 5 ∧ numeral digits = ctr.toNat

theorem isShortestNumeral_decimal_toNat (ctr : Word16) : IsShortestNumeral (decimal ctr.toNat) ctr.toNat :=
  isShortestNumeral_decimal (by omega)

theorem counterField_eq_some_iff {v : List Byte} {ctr : Word16} : counterField v = some ctr ↔ IsCounter v ctr := by
  have hvalue (n : Nat) : (if n ≤ 65535 then some (BitVec.ofNat 16 n) else none) = some ctr ↔ n = ctr.toNat := by
    constructor
    · intro h
      obtain ⟨hn, h⟩ := Option.ite_none_right_eq_some.1 h
      rw [← Option.some.inj h, BitVec.toNat_ofNat]
      omega
    · rintro rfl
      rw [if_pos (by omega), BitVec.ofNat_toNat, BitVec.setWidth_eq]
  rw [counterField, Option.ite_none_right_eq_some, Option.bind_eq_some_iff]
  simp only [decimalValue_iff, hvalue]
  constructor
  · rintro ⟨⟨hmin, hmax⟩, _, ⟨hdigits, rfl⟩, hctr⟩
    exact ⟨hdigits, hmin, hmax, hctr⟩
  · rintro ⟨hdigits, hmin, hmax, hctr⟩
    exact ⟨⟨hmin, hmax⟩, _, ⟨hdigits, rfl⟩, hctr⟩

/-! Hex and modhex values (R170 to R172) -/

theorem nibbleOfLowerHex_eq_some {ch : Byte} {n : Nibble} : nibbleOfLowerHex ch = some n → hexDigit n = ch := by
  revert ch n; decide +kernel

theorem map_of_nibbles_eq_some {read : Byte → Option Nibble} {write : Nibble → Byte}
    (hread : ∀ {ch n}, read ch = some n → write n = ch) {t : List Byte} {ns : List Nibble}
    (h : nibbles read t = some ns) : ns.map write = t := by
  induction t generalizing ns with
  | nil => cases h; rfl
  | cons ch t ih =>
    rw [nibbles] at h
    split at h
    · next hch hns => cases h; rw [List.map_cons, hread hch, ih hns]
    · cases h

theorem unpackNibbles_packNibbles {ns : List Nibble} (h : ns.length % 2 = 0) : unpackNibbles (packNibbles ns) = ns := by
  induction ns using packNibbles.induct with
  | case1 hi lo rest ih =>
    have hpair : ∀ x y : Nibble, (x ++ y).extractLsb' 4 4 = x ∧ (x ++ y).extractLsb' 0 4 = y := by decide
    have hrest : rest.length % 2 = 0 := by simp only [List.length_cons] at h; omega
    show _ :: _ :: unpackNibbles (packNibbles rest) = _
    rw [ih hrest, (hpair hi lo).1, (hpair hi lo).2]
  | case2 => cases h
  | case3 => rfl

/-- R10: `unhex` accepts the lowercase hex renderings and no other text. -/
theorem unhex_eq_some_iff {t b : List Byte} : unhex t = some b ↔ t = hex b := by
  constructor
  · intro h
    obtain ⟨hlen, h⟩ := Option.ite_none_right_eq_some.1 h
    obtain ⟨ns, hns, rfl⟩ := Option.map_eq_some_iff.1 h
    rw [hex, unpackNibbles_packNibbles (by rwa [nibbles_length hns]),
      map_of_nibbles_eq_some nibbleOfLowerHex_eq_some hns]
  · rintro rfl
    exact unhex_hex b

theorem vectorOfList?_eq_some_iff {n : Nat} {l : List Byte} {x : Vector Byte n} :
    vectorOfList? n l = some x ↔ l = x.toList := by
  constructor
  · intro h
    rw [vectorOfList?] at h
    split at h
    · cases h; rfl
    · cases h
  · rintro rfl
    exact vectorOfList?_toList x

theorem eq_replicate_of_toList {n : Nat} {b : Byte} {x : Vector Byte n} (h : x.toList = List.replicate n b) :
    x = Vector.replicate n b :=
  Vector.toList_inj.1 (h.trans Vector.toList_replicate.symm)

theorem hexField_eq_some_iff {n : Nat} {v : List Byte} {x : Vector Byte n} :
    hexField n v = some x ↔ v = hexText x.toList := by
  rw [hexField, Option.ite_none_right_eq_some, Option.bind_eq_some_iff, ← hex_eq_hexText]
  simp only [unhex_eq_some_iff, vectorOfList?_eq_some_iff, exists_eq_right]
  exact and_iff_right_of_imp fun h => by rw [h, hex_length, Vector.length_toList]

theorem modhexField_eq_some_iff {n : Nat} {v : List Byte} {x : Vector Byte n} :
    modhexField n v = some x ↔ v = modhexText x.toList := by
  constructor
  · intro h
    rw [modhexField] at h
    split at h
    · next m hm =>
      obtain rfl := hexField_eq_some_iff.1 h
      have hback : mhEnc (hexText x.toList) = .ok v := mhEnc_of_mhDec hm
      rw [← hex_eq_hexText, mhEnc_hex, modhexOfBytes_eq_modhexText] at hback
      exact (Except.ok.inj hback).symm
    · cases h
  · rintro rfl
    rw [modhexField, mhDec_modhexText]
    exact hexField_eq_some_iff.2 (hex_eq_hexText _)

/-! Field lines (R168, R177) -/

/-- R169: a value that is not empty and whose characters are all above SP, so none of them is whitespace or LF. -/
def IsSolid (v : List Byte) : Prop := v ≠ [] ∧ ∀ ch ∈ v, 0x20 < ch.toNat

theorem IsCounter.isSolid {v : List Byte} {ctr : Word16} (h : IsCounter v ctr) : IsSolid v := by
  obtain ⟨hdigits, hmin, _, _⟩ := h
  exact ⟨List.ne_nil_of_length_pos hmin, fun ch hch => Nat.lt_of_lt_of_le (by decide) (hdigits ch hch).1⟩

theorem isSolid_map_unpackNibbles {write : Nibble → Byte} (hwrite : ∀ n, 0x20 < (write n).toNat) {n : Nat}
    [NeZero n] (x : Vector Byte n) : IsSolid ((unpackNibbles x.toList).map write) := by
  refine ⟨List.ne_nil_of_length_pos ?_, List.forall_mem_map.2 fun m _ => hwrite m⟩
  rw [List.length_map, unpackNibbles_length, Vector.length_toList]
  exact Nat.mul_pos (by decide) (Nat.pos_of_neZero n)

theorem isSolid_hexText {n : Nat} [NeZero n] (x : Vector Byte n) : IsSolid (hexText x.toList) :=
  hex_eq_hexText _ ▸ isSolid_map_unpackNibbles (by decide) x

theorem isSolid_modhexText {n : Nat} [NeZero n] (x : Vector Byte n) : IsSolid (modhexText x.toList) :=
  modhexOfBytes_eq_modhexText _ ▸ isSolid_map_unpackNibbles (by decide) x

/-- R168: a line that shows the value v: the label, and v with blanks on both sides. -/
def IsField (label v line : List Byte) : Prop := ∃ a b, IsBlanks a ∧ IsBlanks b ∧ line = label ++ (a ++ v ++ b)

theorem IsSolid.not_isBlank {v : List Byte} (h : IsSolid v) : ∀ ch ∈ v, isBlank ch = false := by
  intro ch hch
  have hch := h.2 ch hch
  rw [Bool.eq_false_iff, ne_eq, isBlank_iff]
  rintro (rfl | rfl) <;> exact absurd hch (by decide)

theorem lineFeed_notMem_isBlanks {a : List Byte} (h : IsBlanks a) : lineFeed ∉ a := fun hmem => by
  rcases h _ hmem with h | h <;> exact absurd h (by decide)

theorem IsSolid.lineFeed_notMem {v : List Byte} (h : IsSolid v) : lineFeed ∉ v := fun hmem =>
  absurd (h.2 _ hmem) (by decide)

/-- R167: a field line holds no LF of its own. -/
theorem IsField.lineFeed_notMem {label v line : List Byte} (h : IsField label v line) (hlabel : lineFeed ∉ label)
    (hv : IsSolid v) : lineFeed ∉ line := by
  obtain ⟨a, b, ha, hb, rfl⟩ := h
  simp only [List.mem_append, not_or]
  exact ⟨hlabel, ⟨lineFeed_notMem_isBlanks ha, hv.lineFeed_notMem⟩, lineFeed_notMem_isBlanks hb⟩

/-- R177: the parser reads a field of a line exactly when the line shows a text `v` of that field. -/
theorem field_bind_eq_some_iff {α : Type} {read : List Byte → Option α} {x : α} {shows : List Byte → Prop}
    (hread : ∀ {v}, read v = some x ↔ shows v) (hsolid : ∀ {v}, shows v → IsSolid v) {label line : List Byte} :
    (fieldValue label line).bind read = some x ↔ ∃ v, shows v ∧ IsField label v line := by
  rw [Option.bind_eq_some_iff]
  constructor
  · rintro ⟨v, hvalue, hv⟩
    obtain ⟨rest, rfl, rfl⟩ := fieldValue_some hvalue
    obtain ⟨a, b, ha, hb, hrest⟩ := trim_decompose rest
    exact ⟨_, hread.1 hv, a, b, ha, hb, congrArg (label ++ ·) hrest⟩
  · rintro ⟨v, hv, a, b, ha, hb, rfl⟩
    refine ⟨v, ?_, hread.2 hv⟩
    rw [fieldValue_label, trim_blanks ha hb (hsolid hv).not_isBlank (hsolid hv).1]

/-! Lines (R167, R177) -/

/-- R177: the lines of a text hold no LF, and the text is they with one LF between each two. -/
theorem splitLines_eq_iff {t : List Byte} {ls : List (List Byte)} (hne : ls ≠ []) :
    splitLines t = ls ↔ (∀ l ∈ ls, lineFeed ∉ l) ∧ t = [lineFeed].intercalate ls := by
  induction ls generalizing t with
  | nil => exact absurd rfl hne
  | cons l ls ih =>
    constructor
    · intro h
      obtain ⟨hl, ⟨rfl, rfl⟩ | ⟨t', rfl, ht'⟩⟩ := splitLines_cases h
      · exact ⟨List.forall_mem_singleton.2 hl, List.intercalate_singleton.symm⟩
      · have hls : ls ≠ [] := ht' ▸ splitLines_ne_nil t'
        obtain ⟨hmem, rfl⟩ := (ih hls).1 ht'
        rw [List.intercalate_cons_of_ne_nil hls, List.append_assoc]
        exact ⟨List.forall_mem_cons.2 ⟨hl, hmem⟩, rfl⟩
    · rintro ⟨hmem, rfl⟩
      obtain ⟨hl, hmem⟩ := List.forall_mem_cons.1 hmem
      by_cases hls : ls = []
      · rw [hls, List.intercalate_singleton, splitLines_of_noLf hl]
      · rw [List.intercalate_cons_of_ne_nil hls, List.append_assoc, List.singleton_append, splitLines_line hl,
          (ih hls).2 ⟨hmem, rfl⟩]

/-- R165, R167: what may stand after the last line. -/
def IsFinalLf (last : List Byte) : Prop := last = [] ∨ last = [lineFeed]

theorem dropFinalLf_append_finalLf (t : List Byte) : ∃ last, IsFinalLf last ∧ t = dropFinalLf t ++ last := by
  rw [dropFinalLf]
  split
  · next h => exact ⟨[lineFeed], .inr rfl, (List.dropLast_append_getLast? _ h).symm⟩
  · exact ⟨[], .inl rfl, (List.append_nil t).symm⟩

theorem getLast?_append_ne_lineFeed {t l : List Byte} (hne : l ≠ []) (hl : lineFeed ∉ l) :
    (t ++ l).getLast? ≠ some lineFeed := by
  rw [List.getLast?_append_of_ne_nil _ hne]
  exact fun h => hl (List.mem_of_getLast? h)

theorem dropFinalLf_of_append {t last : List Byte} (ht : t.getLast? ≠ some lineFeed) (hlast : IsFinalLf last) :
    dropFinalLf (t ++ last) = t := by
  rcases hlast with rfl | rfl
  · rw [List.append_nil, dropFinalLf, if_neg ht]
  · rw [dropFinalLf, if_pos List.getLast?_concat, List.dropLast_concat]

/-! The whole record (R165 to R177) -/

/-- R165 to R173: the five lines of a record that shows `id` and `ctr`. -/
inductive RecordLines (id : Identity) (ctr : Word16) : List (List Byte) → Prop
  | mk {l1 l2 l3 l4 : List Byte} (pubid : IsField pubidLabel (modhexText id.pubid.toList) l1)
      (key : IsField keyLabel (hexText id.key.toList) l2) (secid : IsField secidLabel (hexText id.secid.toList) l3)
      (counter : ∃ digits, IsCounter digits ctr ∧ IsField counterLabel digits l4) :
      RecordLines id ctr [headerLine, l1, l2, l3, l4]

theorem modhexField_of_line {n : Nat} [NeZero n] {x : Vector Byte n} {label line : List Byte} :
    (fieldValue label line).bind (modhexField n) = some x ↔ IsField label (modhexText x.toList) line := by
  rw [field_bind_eq_some_iff modhexField_eq_some_iff (by rintro _ rfl; exact isSolid_modhexText x), exists_eq_left]

theorem hexField_of_line {n : Nat} [NeZero n] {x : Vector Byte n} {label line : List Byte} :
    (fieldValue label line).bind (hexField n) = some x ↔ IsField label (hexText x.toList) line := by
  rw [field_bind_eq_some_iff hexField_eq_some_iff (by rintro _ rfl; exact isSolid_hexText x), exists_eq_left]

theorem counterField_of_line {ctr : Word16} {label line : List Byte} :
    (fieldValue label line).bind counterField = some ctr ↔ ∃ digits, IsCounter digits ctr ∧ IsField label digits line :=
  field_bind_eq_some_iff counterField_eq_some_iff IsCounter.isSolid

theorem parseLines_eq_some_iff {ls : List (List Byte)} {id : Identity} {ctr : Word16} :
    parseLines ls = some (id, ctr) ↔ RecordLines id ctr ls := by
  constructor
  · intro h
    rw [parseLines.eq_def] at h
    split at h
    · next l0 l1 l2 l3 l4 =>
      obtain ⟨rfl, h⟩ := Option.ite_none_right_eq_some.1 h
      obtain ⟨pub, hpub, h⟩ := Option.bind_eq_some_iff.1 h
      obtain ⟨key, hkey, h⟩ := Option.bind_eq_some_iff.1 h
      obtain ⟨sec, hsec, h⟩ := Option.bind_eq_some_iff.1 h
      obtain ⟨c, hc, h⟩ := Option.bind_eq_some_iff.1 h
      cases h
      exact .mk (modhexField_of_line.1 hpub) (hexField_of_line.1 hkey) (hexField_of_line.1 hsec)
        (counterField_of_line.1 hc)
    · cases h
  · rintro ⟨hpub, hkey, hsec, hctr⟩
    rw [parseLines, if_pos rfl, modhexField_of_line.2 hpub, hexField_of_line.2 hkey, hexField_of_line.2 hsec,
      counterField_of_line.2 hctr]
    rfl

theorem RecordLines.lineFeed_notMem {ls : List (List Byte)} {id : Identity} {ctr : Word16} (h : RecordLines id ctr ls) :
    ∀ l ∈ ls, lineFeed ∉ l := by
  obtain ⟨hpub, hkey, hsec, digits, hdigits, hctr⟩ := h
  simp only [List.forall_mem_cons]
  exact ⟨by decide, hpub.lineFeed_notMem (by decide) (isSolid_modhexText _),
    hkey.lineFeed_notMem (by decide) (isSolid_hexText _), hsec.lineFeed_notMem (by decide) (isSolid_hexText _),
    hctr.lineFeed_notMem (by decide) hdigits.isSolid, List.forall_mem_nil _⟩

/-- R168: the last line of a record begins with its label, so the text before a final LF does not end in one. -/
theorem RecordLines.getLast?_ne {ls : List (List Byte)} {id : Identity} {ctr : Word16} (h : RecordLines id ctr ls) :
    ([lineFeed].intercalate ls).getLast? ≠ some lineFeed := by
  have hmem := h.lineFeed_notMem
  obtain @⟨_, _, _, l4, _, _, _, digits, _, hctr⟩ := h
  have hl4 : l4 ≠ [] := by
    obtain ⟨a, b, _, _, rfl⟩ := hctr
    exact List.append_ne_nil_of_left_ne_nil (List.cons_ne_nil _ _) _
  simp only [List.intercalate_cons_cons, List.intercalate_singleton, ← List.append_assoc]
  exact getLast?_append_ne_lineFeed hl4 (hmem l4 (by simp))

/-- R177: `Parse` accepts the five lines of a record with LF between them and at most one LF after them. -/
theorem parse_eq_ok_iff {t : List Byte} {id : Identity} {ctr : Word16} :
    parse t = .ok (id, ctr) ↔
      ∃ ls last, RecordLines id ctr ls ∧ IsFinalLf last ∧ t = [lineFeed].intercalate ls ++ last := by
  have hparse : parse t = .ok (id, ctr) ↔ RecordLines id ctr (splitLines (dropFinalLf t)) := by
    rw [← parseLines_eq_some_iff, parse]
    cases parseLines (splitLines (dropFinalLf t)) <;> simp
  rw [hparse]
  constructor
  · intro h
    obtain ⟨last, hlast, ht⟩ := dropFinalLf_append_finalLf t
    obtain ⟨_, hlines⟩ := (splitLines_eq_iff (splitLines_ne_nil _)).1 rfl
    exact ⟨_, last, h, hlast, hlines ▸ ht⟩
  · rintro ⟨ls, last, h, hlast, rfl⟩
    have hne : ls ≠ [] := by cases h; exact List.cons_ne_nil _ _
    rwa [dropFinalLf_of_append h.getLast?_ne hlast, (splitLines_eq_iff hne).2 ⟨h.lineFeed_notMem, rfl⟩]

/-- R165 to R168: the grammar's text is the five lines joined by LF, and what stands after them. -/
theorem recordText_eq_intercalate (pub key sec ctr : List Byte) (a b : Fin 4 → List Byte) (last : List Byte) :
    recordText pub key sec ctr a b last =
      [lineFeed].intercalate [headerLine, pubidLabel ++ (a 0 ++ pub ++ b 0), keyLabel ++ (a 1 ++ key ++ b 1),
        secidLabel ++ (a 2 ++ sec ++ b 2), counterLabel ++ (a 3 ++ ctr ++ b 3)] ++ last := by
  simp only [recordText_eq, List.intercalate_cons_cons, List.intercalate_singleton, List.append_assoc, List.cons_append,
    List.nil_append]

/-- R175: `Format` writes the grammar's text with no blanks, the shortest numeral and a final LF. -/
theorem format_eq_recordText (id : Identity) (ctr : Word16) :
    format id ctr = recordText (modhexText id.pubid.toList) (hexText id.key.toList) (hexText id.secid.toList)
      (decimal ctr.toNat) noBlanks noBlanks [0x0A] := by
  rw [recordText_eq, format, modhexOfBytes_eq_modhexText, hex_eq_hexText, hex_eq_hexText]
  simp only [noBlanks, List.append_assoc, List.cons_append, List.nil_append, List.append_nil]
  rfl

/-! LOAD and SAVE as commands (R174, R176) -/

/-- R174: LOAD of a record that parses holds the token of the insertion event on the record's fields. -/
theorem exec_load_of_parse {s : State} {t : List Byte} {id : Identity} {ctr : Word16} (hrun : s.halt = false)
    (h : parse t = .ok (id, ctr)) :
    exec (.load t) s = .next { s with
      held := .token (insertion id ctr s.ports).1, ports := (insertion id ctr s.ports).2, obuf := answer 0 1 [] } :=
  exec_hold hrun (by rw [bodyOf, h])

/-- R174, R177: LOAD of a text that does not parse answers STATUS 4 with the text. -/
theorem exec_load_of_not_parse {s : State} {t : List Byte} (hrun : s.halt = false) (h : ∀ r, parse t ≠ .ok r) :
    exec (.load t) s = .next { s with obuf := answer 4 s.sr t } := by
  cases hparse : parse t with
  | ok r => exact absurd hparse (h r)
  | error e =>
    cases parse_error hparse
    have hbody : bodyOf (.load t) s = (s, .error (.formatError t)) := by rw [bodyOf, hparse]
    rw [exec_error hrun hbody, raise_of_not_fatal s (.formatError t) rfl, ← responseFrame_eq_answer]; rfl

/-- R178: the registers that R178 names after LOAD of a record that parses, whatever the ports answer. -/
theorem load_restores {s : State} {t : List Byte} {id : Identity} {ctr : Word16} (hrun : s.halt = false)
    (h : parse t = .ok (id, ctr)) :
    ∃ u l, exec (.load t) s = .next u ∧ u.held = .token l ∧ l.id = id ∧ l.ctr = ctr + 1 ∧ l.sctr = 0 := by
  refine ⟨_, _, exec_load_of_parse hrun h, rfl, ?_⟩
  rw [insertion, sanitize_eq]
  exact ⟨rfl, rfl, rfl⟩

theorem exec_save_of_token {s : State} {k : Token} (hrun : s.halt = false) (hk : s.held = .token k) :
    exec .save s = .next { s with obuf := answer 0 1 (format k.id k.ctr) } := by
  have hbody : bodyOf .save s = (s, .ok (format k.id k.ctr)) := by rw [bodyOf, withToken_token hk]
  rw [exec_ok hrun hbody, sr_of_token hrun hk]

end Sys2Proof.Machine
end

section
/-! PROOF. The statements about the Persistence Format Adapter (45_persistence.md). -/

namespace Sys2Proof.Machine

/-- Settles O53: the digits are those of `dec`, the shortest numeral of the counter. -/
theorem formatWritesRecord : Obligations.FormatWritesRecord := fun id ctr =>
  ⟨_, isShortestNumeral_decimal_toNat ctr, format_eq_recordText id ctr, format_length id ctr⟩

/-- Settles O54: the record's lines are the grammar's, and `Parse` has one error. -/
theorem parseAcceptsExactlyTheGrammar : Obligations.ParseAcceptsExactlyTheGrammar := by
  refine ⟨fun t id ctr => ?_, fun t e => parse_error⟩
  rw [parse_eq_ok_iff]
  constructor
  · rintro ⟨_, last, ⟨⟨a0, b0, ha0, hb0, rfl⟩, ⟨a1, b1, ha1, hb1, rfl⟩, ⟨a2, b2, ha2, hb2, rfl⟩,
      digits, ⟨hdigits, hmin, hmax, hvalue⟩, a3, b3, ha3, hb3, rfl⟩, hlast, rfl⟩
    refine ⟨digits, ![a0, a1, a2, a3], ![b0, b1, b2, b3], last, ?_, hdigits, hmin, hmax, hvalue, hlast, ?_⟩
    · exact fun | 0 => ⟨ha0, hb0⟩ | 1 => ⟨ha1, hb1⟩ | 2 => ⟨ha2, hb2⟩ | 3 => ⟨ha3, hb3⟩
    · rw [recordText_eq_intercalate]; rfl
  · rintro ⟨digits, a, b, last, hblanks, hdigits, hmin, hmax, hvalue, hlast, rfl⟩
    have hfield (label v : List Byte) (j : Fin 4) : IsField label v (label ++ (a j ++ v ++ b j)) :=
      ⟨a j, b j, (hblanks j).1, (hblanks j).2, rfl⟩
    exact ⟨_, last, .mk (hfield ..) (hfield ..) (hfield ..) ⟨digits, ⟨hdigits, hmin, hmax, hvalue⟩, hfield ..⟩, hlast,
      recordText_eq_intercalate ..⟩

/-- R178: what `Format` writes is a text of the grammar, so `Parse` returns the fields it shows. -/
theorem parse_format (id : Identity) (ctr : Word16) : parse (format id ctr) = .ok (id, ctr) := by
  obtain ⟨digits, ⟨hdigits, hvalue, hmin, hmax, _⟩, hformat, _⟩ := formatWritesRecord id ctr
  obtain ⟨haccepts, _⟩ := parseAcceptsExactlyTheGrammar
  rw [hformat, haccepts]
  exact ⟨digits, noBlanks, noBlanks, [0x0A], fun _ => ⟨List.forall_mem_nil _, List.forall_mem_nil _⟩, hdigits, hmin,
    hmax, hvalue, .inr rfl, rfl⟩

/-- Settles O55: `Parse` reads back what SAVE answers, in whatever state LOAD then runs. -/
theorem recordRoundTrip : Obligations.RecordRoundTrip := by
  refine ⟨parse_format, fun s k hrun hk => ?_, fun t id ctr _ hformat => ?_⟩
  · have hparse := parse_format k.id k.ctr
    exact ⟨_, _, exec_save_of_token hrun hk, rfl, load_restores hrun hparse, fun v hv => load_restores hv hparse⟩
  · rw [← hformat]
    exact ⟨_, isShortestNumeral_decimal_toNat ctr, format_eq_recordText id ctr⟩

/-- Settles O56: a record that parses gives the insertion event on its fields, any other text the one `FormatError`. -/
theorem loadRestoresOrRejects : Obligations.LoadRestoresOrRejects := by
  intro s t hrun
  refine ⟨fun id ctr hparse => ?_, exec_load_of_not_parse hrun⟩
  have hctr : ctr + 1 = BitVec.ofNat 16 ((ctr.toNat + 1) % 65536) := BitVec.eq_of_toNat_eq (by simp)
  rw [exec_load_of_parse hrun hparse, insertion, sanitizeRefreshes, hctr]

/-- Settles O57: with a token held the body is `Format`, whose numeral has 1 to 5 digits; with none it is
`InvalidState`. -/
theorem saveAnswersRecord : Obligations.SaveAnswersRecord := by
  intro s hrun
  refine ⟨fun k hk => ⟨exec_save_of_token hrun hk, ?_⟩, fun hnone => ?_⟩
  · obtain ⟨hmin, hmax⟩ := decimal_length k.ctr.toNat
    rw [format_length]
    omega
  · exact exec_of_noToken hrun hnone (by rw [bodyOf, withToken_noToken hnone])

/-- Settles O58: the accepted records show the zero identity, and each text is parsed. -/
theorem recordValuesRejected : Obligations.RecordValuesRejected := by
  refine ⟨?_, ?_⟩
  · rintro ⟨pubid, key, secid⟩ hpub hkey hsec
    obtain rfl := eq_replicate_of_toList hpub
    obtain rfl := eq_replicate_of_toList hkey
    obtain rfl := eq_replicate_of_toList hsec
    decide +kernel
  · simp only [Rejected]
    decide +kernel

/-- Settles O59: the texts are V with one edit each, and each is parsed. -/
theorem recordShapesRejected : Obligations.RecordShapesRejected := by
  simp only [Obligations.RecordShapesRejected, Rejected]
  refine ⟨rfl, by decide +kernel, ⟨(⟨.replicate 6 0, .replicate 16 0, .replicate 6 0⟩, 0), by decide +kernel⟩, ?_⟩
  decide +kernel

end Sys2Proof.Machine
end

section
/-! SUPPORT. How a transaction ends in an error: which error a command of a halted and of a running block raises, that a
STATUS names the error raised, and that the buffers of the last transaction do not show in the next
(60_exceptions.md R187 to R195). -/

namespace Sys2Proof.Machine

/-! The kinds of error (R186, R195) -/

/-- R77, R186: the fatal kinds are those of STATUS 3 and 5. -/
theorem Err.fatal_iff_code (e : Err) : e.fatal = true ↔ e.code.toNat = 3 ∨ e.code.toNat = 5 := by
  cases e <;> simp [Err.fatal, Err.code]

/-- R195: the table's errors have the table's STATUS codes. -/
theorem Fails.code_mem {i : Instr} {e : Err} (h : Fails i e) : e.code.toNat ∈ allowedErrors i := by
  cases h <;> simp [Err.code, allowedErrors]

/-- R188, R190: `raise` read by its STATUS: a caller-input error changes OBUF only. -/
theorem raise_of_caller_code (s : State) {e : Err}
    (h : e.code.toNat = 1 ∨ e.code.toNat = 2 ∨ e.code.toNat = 4) :
    s.raise e = { s with obuf := (s.raise e).obuf } := by
  have hfatal : e.fatal = false := by
    rw [← Bool.not_eq_true, e.fatal_iff_code]
    omega
  rw [raise_of_not_fatal s e hfatal]

/-- R190, R191: in a halted block `InvalidState` finds HALT set, so it changes OBUF only. -/
theorem raise_invalidState_of_halted {s : State} (h : s.halt = true) :
    s.raise .invalidState = { s with obuf := answer 3 s.sr [] } := by
  have hsr : s.sr ||| 2 = s.sr := by rw [sr_eq, h]; cases s.valid <;> rfl
  rw [raise_of_fatal s rfl, hsr, ← h]; rfl

/-! How a command and a frame end (R187, R191) -/

/-- R191, R195: the error a command can end in: `InvalidState` when halted, its own errors when running. -/
inductive Raises (s : State) (i : Instr) : Err → Prop
  | halted (h : s.halt = true) : Raises s i .invalidState
  | running {e : Err} (h : s.halt = false) (hf : Fails i e) : Raises s i e

/-- R187 to R195: everything a command can do, with the error it raises. -/
theorem exec_raises_cases {i : Instr} {s t : State} (h : exec i s = .next t) :
    (∃ e, Raises s i e ∧ t = s.raise e) ∨
    ∃ s' v, s.halt = false ∧ bodyOf i s = (s', .ok v) ∧ t = { s' with obuf := answer 0 s'.sr v } := by
  rcases exec_cases i s with ⟨hhalt, ht⟩ | ⟨hrun, _⟩
  · cases ht.symm.trans h
    exact .inl ⟨_, .halted hhalt, rfl⟩
  · rcases bodyOf_cases i s with ⟨e, hb⟩ | ⟨s', v, hb, _⟩
    · cases (exec_error hrun hb).symm.trans h
      exact .inl ⟨e, .running hrun (bodyOf_fails (congrArg Prod.snd hb)), rfl⟩
    · cases (exec_ok hrun hb).symm.trans h
      exact .inr ⟨s', v, hrun, hb, rfl⟩

/-- R76, R187: the response of an error shows its code and its information. -/
theorem code_info_of_raise_answer {s : State} {e : Err} {n : Nat} {r : List Byte} (hn : n ≤ 5)
    (h : (s.raise e).obuf = answer n (s.raise e).sr r) : e.code.toNat = n ∧ e.info = r := by
  have hcode := e.code_le
  obtain ⟨hn, _, hr⟩ := answer_injective (by omega) (by omega) ((raise_answer s e).symm.trans h)
  exact ⟨hn, hr⟩

/-- R77, R187: a command that answers a STATUS other than OK has raised the error of that STATUS. -/
theorem exec_raises_of_status {i : Instr} {s t : State} {n : Nat} {r : List Byte} (h : exec i s = .next t)
    (hobuf : t.obuf = answer n t.sr r) (hpos : n ≠ 0) (hn : n ≤ 5) :
    ∃ e, Raises s i e ∧ t = s.raise e ∧ e.code.toNat = n ∧ e.info = r := by
  rcases exec_raises_cases h with ⟨e, he, rfl⟩ | ⟨s', v, _, _, rfl⟩
  · exact ⟨e, he, rfl, code_info_of_raise_answer hn hobuf⟩
  · have hzero : 0 = n := (answer_injective (by omega) (by omega) hobuf).1
    exact absurd hzero.symm hpos

/-- R77, R79, R187: a frame answered with a STATUS other than OK, whether or not it selects a command, has raised the
error of that STATUS. -/
theorem runFrame_raises_of_status {f : List Byte} {s t : State} {n : Nat} {r : List Byte} (h : runFrame f s = .next t)
    (hobuf : t.obuf = answer n t.sr r) (hpos : n ≠ 0) (hn : n ≤ 5) :
    ∃ e, t = (writeFrame f s).raise e ∧ e.code.toNat = n := by
  rcases runFrame_cases f s with ⟨_, _, hf⟩ | ⟨i, _, hf⟩
  · cases (hf.trans (rejectFrame_eq _)).symm.trans h
    exact ⟨_, rfl, (code_info_of_raise_answer hn hobuf).1⟩
  · obtain ⟨e, _, ht, hcode, _⟩ := exec_raises_of_status (hf.symm.trans h) hobuf hpos hn
    exact ⟨e, ht, hcode⟩

/-- R191, R192: a frame is answered by a command, so the halt check comes first whatever the frame is. -/
theorem runFrame_eq_command (f : List Byte) (s : State) : ∃ body, runFrame f s = command body (writeFrame f s) := by
  rcases runFrame_cases f s with ⟨_, _, hf⟩ | ⟨i, _, hf⟩
  · exact ⟨_, hf⟩
  · exact ⟨_, hf.trans (exec_eq_command i _)⟩

/-- R191: the halt check's answer. -/
theorem command_answers_of_halted (body : State → State × Except Err (List Byte)) {s : State} (h : s.halt = true) :
    command body s = .next { s with obuf := answer 3 s.sr [] } := by
  rw [command_halted h, raise_invalidState_of_halted h]

/-! The last response does not show in the next (R188) -/

theorem finish_with_obuf (s : State) (o : List Byte) (x : Except Err (List Byte)) :
    ({ s with obuf := o } : State).finish x = s.finish x := by
  cases x <;> rfl

theorem bodyOf_with_obuf (i : Instr) (s : State) (o : List Byte) :
    bodyOf i { s with obuf := o } = ({ (bodyOf i s).1 with obuf := o }, (bodyOf i s).2) := by
  cases i with
  | mhenc | mhdec | crc16 | aesenc | create => rfl
  | gen | insert | button | save => cases hs : s.held <;> simp only [bodyOf, withToken, hs] <;> rfl
  | load t => simp only [bodyOf]; cases parse t <;> rfl

/-- R188: no command reads OBUF, and every command overwrites it. -/
theorem exec_with_obuf (i : Instr) (s : State) (o : List Byte) : exec i { s with obuf := o } = exec i s := by
  rw [exec_eq_command, exec_eq_command]
  by_cases h : s.halt = true
  · rw [command_halted h, command_halted (s := { s with obuf := o }) h]; rfl
  · have hrun : s.halt = false := Bool.eq_false_of_not_eq_true h
    rw [command_running hrun, command_running (s := { s with obuf := o }) hrun, bodyOf_with_obuf, finish_with_obuf]

theorem noToken_of_not_valid {s : State} (h : s.valid = false) : s.held = .noToken := by
  cases hs : s.held with
  | noToken => rfl
  | token k => cases h.symm.trans (valid_of_token hs)

end Sys2Proof.Machine
end

section
/-! PROOF. The statements about errors and halting (60_exceptions.md). -/

namespace Sys2Proof.Machine

/-- Settles O15: a command and a frame both begin with the halt check. -/
theorem haltCheckComesFirst : Obligations.HaltCheckComesFirst := by
  intro s hhalt
  refine ⟨fun i => (exec_eq_command i s).trans (command_answers_of_halted _ hhalt), fun f rest hhost => ?_⟩
  obtain ⟨body, hbody⟩ := runFrame_eq_command f { s with host := rest }
  exact (step_cons hhost).trans (hbody.trans (command_answers_of_halted body hhalt))

/-- Settles O16: a STATUS of 1, 2 or 4 is a caller-input error raised, and no command reads OBUF. -/
theorem callerErrorsDoNotMutate : Obligations.CallerErrorsDoNotMutate := by
  refine ⟨fun i s t n r h hobuf hn => ?_, fun s t f rest n r hhost h hobuf hn => ?_⟩
  · obtain ⟨e, _, rfl, rfl, _⟩ := exec_raises_of_status h hobuf (by omega) (by omega)
    have ht := raise_of_caller_code s hn
    exact ⟨ht, fun j => by rw [ht, exec_with_obuf]⟩
  · obtain ⟨e, rfl, rfl⟩ := runFrame_raises_of_status ((step_cons hhost).symm.trans h) hobuf (by omega) (by omega)
    exact raise_of_caller_code _ hn

/-- Settles O17: a STATUS of 3 or 5 is a fatal error raised, and `raise` writes no token register. -/
theorem fatalErrorsHalt : Obligations.FatalErrorsHalt := by
  intro i s t n r h hobuf hn
  obtain ⟨e, _, rfl, rfl, _⟩ := exec_raises_of_status h hobuf (by omega) (by omega)
  have hfatal : e.fatal = true := e.fatal_iff_code.2 hn
  exact ⟨by rw [raise_halt, hfatal, Bool.or_true], raise_valid s e⟩

/-- Settles O19: a running command that fails raises an error of R195's table, and one that succeeds keeps HALT. -/
theorem errorsByCommand : Obligations.ErrorsByCommand := by
  intro i s t hrun h
  rcases exec_raises_cases h with ⟨e, he, rfl⟩ | ⟨s', v, _, hb, rfl⟩
  · refine ⟨e.code.toNat, e.info, raise_answer s e, .inr ?_, fun _ => ⟨rfl, rfl⟩, ?_⟩
    · cases he with
      | halted hhalt => cases hrun.symm.trans hhalt
      | running _ hf => exact hf.code_mem
    · rw [raise_halt, hrun, Bool.false_or, e.fatal_iff_code]
  · have hhalt : s'.halt = false := by simpa [hb, hrun] using (bodyOf_frame i s).1
    exact ⟨0, v, rfl, .inl rfl, fun h0 => absurd rfl h0, by simp [hhalt]⟩

/-- Settles O20: only `FormatError` carries information, and only LOAD raises it, with its own operand. -/
theorem errorInformation : Obligations.ErrorInformation := by
  intro i s t n r h hobuf hn hpos
  obtain ⟨e, he, _, rfl, rfl⟩ := exec_raises_of_status h hobuf hpos hn
  refine ⟨fun h4 => by_contra fun hinfo => h4 (Err.code_of_info hinfo), fun h4 => ?_⟩
  cases he with
  | halted => cases h4
  | running _ hf =>
    cases hf with
    | load => rfl
    | mhenc | mhdec | crc16 | aesencKey | aesencBlock | gen | insert | button | save => cases h4

/-- Settles O18: each of the four bodies begins with the token check. -/
theorem tokenCommandsNeedAToken : Obligations.TokenCommandsNeedAToken := by
  intro i s hi hrun hvalid
  have hheld := noToken_of_not_valid hvalid
  refine exec_of_noToken hrun hheld ?_
  rcases hi with rfl | rfl | rfl | rfl <;> rw [bodyOf, withToken_noToken hheld]

end Sys2Proof.Machine
end

section
/-! SUPPORT. GEN as one state, and the registers a transition leaves at the counters' bounds
(70_reset_and_hazards.md R221, R222). -/

namespace Sys2Proof.Machine

/-! GEN (R145, R221) -/

/-- R145: with a token held GEN changes OBUF only. -/
theorem exec_gen_of_token {s : State} {k : Token} (hrun : s.halt = false) (hk : s.held = .token k) :
    exec .gen s = .next { s with obuf := answer 0 1 (otpOf k) } := by
  obtain ⟨htoken, _⟩ := genAnswersOtp s hrun
  obtain ⟨text, htext, _, hexec⟩ := htoken k hk
  cases (generate_eq_otpOf k).symm.trans htext
  exact hexec

/-- R221: GEN leaves the very same state when OBUF already shows the text of the registers. -/
theorem exec_gen_eq_self {t : State} {k : Token} (hrun : t.halt = false) (hk : t.held = .token k)
    (hobuf : t.obuf = answer 0 1 (otpOf k)) : exec .gen t = .next t := by
  rw [exec_gen_of_token hrun hk, ← hobuf]

/-- R145, R193: a running block's answer to GEN shows what it holds and nothing else of its state. -/
theorem exec_gen_obuf_congr {s t : State} (hs : s.halt = false) (ht : t.halt = false) (hheld : t.held = s.held) :
    ∃ u v, exec .gen s = .next u ∧ exec .gen t = .next v ∧ v.obuf = u.obuf := by
  cases hk : s.held with
  | token k => exact ⟨_, _, exec_gen_of_token hs hk, exec_gen_of_token ht (hheld.trans hk), rfl⟩
  | noToken =>
    obtain ⟨_, hgen⟩ := genAnswersOtp s hs
    obtain ⟨_, hgen'⟩ := genAnswersOtp t ht
    exact ⟨_, _, hgen hk, hgen' (hheld.trans hk), rfl⟩

/-! The counters after a transition (R150 to R152) -/

/-- R151: an insertion advances CTR and clears SCTR. -/
theorem insertion_counters (id : Identity) (ctr : Word16) (p : Ports) :
    (insertion id ctr p).1.ctr = ctr + 1 ∧ (insertion id ctr p).1.sctr = 0 := by
  rw [insertion, sanitize_eq]
  exact ⟨rfl, rfl⟩

theorem press_ctr (k : Token) (p : Ports) : (press k p).1.ctr = k.ctr := by
  rw [press, sanitize_eq]

/-- R76: the response that carries an OTP text begins with STATUS, SR and RLEN = 44. -/
theorem answer_otpOf_take_four (sr : Byte) (k : Token) : (answer 0 sr (otpOf k)).take 4 = [0, sr, 44, 0] := by
  simp [answer, otpOf_length]

end Sys2Proof.Machine
end

section
/-! PROOF. The statements about Reset, GEN's repetition and the counters' wraps (70_reset_and_hazards.md). -/

namespace Sys2Proof.Machine

/-- Settles O52: GEN and BUTTON both leave OBUF showing the text of the registers they leave, and GEN's answer shows no
other part of the state. -/
theorem genRepeats : Obligations.GenRepeats := by
  refine ⟨fun s t hrun hvalid h => ?_, fun i s t u h hheld hrun hu => ?_⟩
  · obtain ⟨k, hk⟩ := exists_token_of_valid hvalid
    rcases h with hgen | hbutton
    · cases (exec_gen_of_token hrun hk).symm.trans hgen
      exact exec_gen_eq_self hrun hk rfl
    · obtain ⟨hrun', hl, hobuf⟩ := button_leaves hrun hk hbutton
      exact exec_gen_eq_self hrun' hl hobuf
  · obtain ⟨_, hhalt⟩ := exec_keepsBits h
    have hrun' : s.halt = false := Bool.eq_false_of_not_eq_true fun hs => by cases hrun.symm.trans (hhalt hs)
    obtain ⟨_, v, hgen, hv, hobuf⟩ := exec_gen_obuf_congr hrun' hrun hheld
    cases hgen.symm.trans hu
    exact ⟨v, hv, hobuf⟩

/-- Settles O3: the step is the reset of the block with the move taken off the host's list. -/
theorem resetClearsTheBlock : Obligations.ResetClearsTheBlock := by
  intro s rest hhost
  exact ⟨resetBlock { s with host := rest }, step_cons hhost, resetBlock_held _, resetBlock_halt _, resetBlock_sr _,
    resetBlock_obuf _, resetBlock_host _, resetBlock_ports _⟩

/-- Settles O50: the sums wrap at the registers' widths, and the two commands answer as for any other count. -/
theorem counterWrapsAreSilent : Obligations.CounterWrapsAreSilent := by
  intro s k hrun hk
  refine ⟨fun hmax => ?_, fun hmax => ?_⟩
  · obtain ⟨hctr, hsctr⟩ := insertion_counters k.id k.ctr s.ports
    have hwrap : k.ctr + 1 = 0 := by rw [hmax]; rfl
    exact ⟨_, _, exec_insert_of_token hrun hk, rfl, hctr.trans hwrap, hsctr, rfl⟩
  · have hwrap : k.sctr + 1 = 0 := by rw [hmax]; rfl
    exact ⟨_, _, exec_button_of_token hrun hk, rfl, (press_sctr ..).trans hwrap, press_ctr ..,
      answer_otpOf_take_four ..⟩

end Sys2Proof.Machine
end
